-- ==== Sys2Proof/Word.lean ====
section
/-! DEFINITION. The word types of the machine (10_state.md R10, 30_encoding.md R61). -/

namespace Sys2Proof

/-- A memory cell, a general register, a timer or an immediate `KK`: 8 bits, unsigned (R10, R63). -/
abbrev Byte := BitVec 8

/-- `I`, `pc`, a stack entry or an opcode: 16 bits, unsigned (R10, R60). -/
abbrev Word := BitVec 16

/-- The address immediate `NNN`: 12 bits, unsigned (R61, R63). -/
abbrev Addr := BitVec 12

/-- The number of a general register `V[0]` to `V[15]`: always in range (R11). -/
abbrev RegIx := Fin 16

/-- The flag register VF is `V[15]` (R12). -/
abbrev vf : RegIx := 15

end Sys2Proof
end

