-- ==== Sys2Proof/Config.lean ====
section
/-! DEFINITION. What the spec fixes for this hardware (00_scope.md R3), the parameters the source
leaves open (R4), and the one free value (the random byte, R156). -/

namespace Sys2Proof

/-- `MEM_SIZE`: 4096 bytes, addresses 0x000 to 0xFFF (R3, R40). -/
abbrev memSize : Nat := 4096

/-- `PROG_BASE`: programs are loaded, and entered, at 0x200 (R3, R41). -/
abbrev progBase : Nat := 0x200

/-- `FONT_BASE`: the font stands at 0x050 after reset (R3, R57). -/
abbrev fontBase : Nat := 0x050

/-- `MAX_ROM`: the longest image `load` accepts, 4096 - 0x200 bytes (R3, R202). -/
abbrev maxRom : Nat := 3584

@[simp] theorem memSize_eq : memSize = 4096 := rfl
@[simp] theorem progBase_eq : progBase = 512 := rfl
@[simp] theorem fontBase_eq : fontBase = 80 := rfl
@[simp] theorem maxRom_eq : maxRom = 3584 := rfl

/-- `FONT[0..79]`: 16 glyphs of 5 bytes, glyph `d` at index `5 * d`, top row first (R57). -/
abbrev Font := Vector Byte 80

/-- `DRW_EDGE`, the policy for sprite pixels past the right or bottom edge (R4, R143; the value
`wrap` is described in 93_implementation_defined.md U2). -/
inductive DrwEdge where
  | clip
  | wrap
  deriving DecidableEq, Repr

/-- `SHIFT_SOURCE`, the register that SHR and SHL shift (R4, R107; the value `vy` is described in
93_implementation_defined.md U3). -/
inductive ShiftSource where
  | vx
  | vy
  deriving DecidableEq, Repr

/-- The parameters the source does not fix (R4). The values this model takes are
`Sys2Proof.Machine.params`. -/
structure Config where
  /-- `FONT` (R57). A claim can quantify over it: `State.resetWith` and the host command `reset` take
  any font (decision D18 of the spec). -/
  font : Font
  /-- `DRW_EDGE` (R143). -/
  drwEdge : DrwEdge
  /-- `SHIFT_SOURCE` (R107, R109). -/
  shiftSource : ShiftSource
  deriving DecidableEq, Repr

/-- The random bytes (R22, R156): byte number `n` of the generator, a FREE VALUE with no body. The
generator's algorithm and seed are not in the spec, so nothing can be proved of a value of it, nor
of two values together (log entry 4). -/
opaque Config.freeByte : Nat → Byte

end Sys2Proof
end

