-- ==== Sys2Proof/Syntax.lean ====
section
/-! DEFINITION. The 34 instructions, one constructor per row of spec/opcode_table.json
(30_encoding.md R65), in the order of that table. -/

namespace Sys2Proof

/-- An instruction with its operands. `x`, `y` name registers, `kk` and `nnn` are the immediates
(R61). The height `n` of `drw` is a count, bounded by `Instr.WellFormed`. -/
inductive Instr where
  /-- `00E0` CLS (R140) -/
  | cls
  /-- `00EE` RET (R122) -/
  | ret
  /-- `1NNN` JP addr (R120) -/
  | jp (nnn : Addr)
  /-- `2NNN` CALL addr (R121) -/
  | call (nnn : Addr)
  /-- `3XKK` SE Vx, byte (R92) -/
  | seByte (x : RegIx) (kk : Byte)
  /-- `4XKK` SNE Vx, byte (R93) -/
  | sneByte (x : RegIx) (kk : Byte)
  /-- `5XY0` SE Vx, Vy (R94) -/
  | seReg (x y : RegIx)
  /-- `6XKK` LD Vx, byte (R90) -/
  | ldByte (x : RegIx) (kk : Byte)
  /-- `7XKK` ADD Vx, byte (R91) -/
  | addByte (x : RegIx) (kk : Byte)
  /-- `8XY0` LD Vx, Vy (R101) -/
  | ldReg (x y : RegIx)
  /-- `8XY1` OR Vx, Vy (R102) -/
  | orReg (x y : RegIx)
  /-- `8XY2` AND Vx, Vy (R103) -/
  | andReg (x y : RegIx)
  /-- `8XY3` XOR Vx, Vy (R104) -/
  | xorReg (x y : RegIx)
  /-- `8XY4` ADD Vx, Vy (R105) -/
  | addReg (x y : RegIx)
  /-- `8XY5` SUB Vx, Vy (R106) -/
  | subReg (x y : RegIx)
  /-- `8XY6` SHR Vx (R107); `y` is the field the word carries, which the rule ignores -/
  | shr (x y : RegIx)
  /-- `8XY7` SUBN Vx, Vy (R108) -/
  | subnReg (x y : RegIx)
  /-- `8XYE` SHL Vx (R109); `y` is the field the word carries, which the rule ignores -/
  | shl (x y : RegIx)
  /-- `9XY0` SNE Vx, Vy (R95) -/
  | sneReg (x y : RegIx)
  /-- `ANNN` LD I, addr (R130) -/
  | ldI (nnn : Addr)
  /-- `BNNN` JP V0, addr (R123) -/
  | jpV0 (nnn : Addr)
  /-- `CXKK` RND Vx, byte (R156) -/
  | rnd (x : RegIx) (kk : Byte)
  /-- `DXYN` DRW Vx, Vy, nibble (R141) -/
  | drw (x y : RegIx) (n : Nat)
  /-- `EX9E` SKP Vx (R150) -/
  | skp (x : RegIx)
  /-- `EXA1` SKNP Vx (R151) -/
  | sknp (x : RegIx)
  /-- `FX07` LD Vx, DT (R153) -/
  | ldVxDT (x : RegIx)
  /-- `FX0A` LD Vx, K (R152) -/
  | ldVxK (x : RegIx)
  /-- `FX15` LD DT, Vx (R154) -/
  | ldDT (x : RegIx)
  /-- `FX18` LD ST, Vx (R155) -/
  | ldST (x : RegIx)
  /-- `FX1E` ADD I, Vx (R131) -/
  | addI (x : RegIx)
  /-- `FX29` LD F, Vx (R132) -/
  | ldF (x : RegIx)
  /-- `FX33` LD B, Vx (R133) -/
  | ldB (x : RegIx)
  /-- `FX55` LD [I], Vx (R134) -/
  | stRegs (x : RegIx)
  /-- `FX65` LD Vx, [I] (R135) -/
  | ldRegs (x : RegIx)
  deriving DecidableEq, Repr

end Sys2Proof
end

