-- ==== Sys2Proof/Decode.lean ====
section
/-! DEFINITION. Fields, decoder, opcode map and encoder (30_encoding.md R60 to R72). -/

namespace Sys2Proof

/-! ## Byte order and fields -/

/-- The byte at the lower address holds opcode bits 15 to 8 (R46). -/
def wordOfBytes (hi lo : Byte) : Word := hi ++ lo

/-- Opcode bits 15 to 8, the byte stored at the lower address (R46). -/
def hiByte (op : Word) : Byte := op.extractLsb' 8 8

/-- Opcode bits 7 to 0, the byte stored at the higher address (R46). -/
def loByte (op : Word) : Byte := op.extractLsb' 0 8

/-- `F = op[15:12]`, the family (R61). -/
def fieldF (op : Word) : BitVec 4 := op.extractLsb' 12 4

/-- `X = op[11:8]`, the first register (R61). -/
def fieldX (op : Word) : RegIx := (op.extractLsb' 8 4).toFin

/-- `Y = op[7:4]`, the second register (R61). -/
def fieldY (op : Word) : RegIx := (op.extractLsb' 4 4).toFin

/-- `N = op[3:0]`, a selector or the sprite height (R61). -/
def fieldN (op : Word) : BitVec 4 := op.extractLsb' 0 4

/-- `KK = op[7:0]`, an immediate or a selector (R61). -/
def fieldKK (op : Word) : Byte := op.extractLsb' 0 8

/-- `NNN = op[11:0]`, an address immediate or the selector of family 0 (R61). -/
def fieldNNN (op : Word) : Addr := op.extractLsb' 0 12

/-- A register number as the four bits of a field. -/
def regBits (x : RegIx) : BitVec 4 := BitVec.ofNat 4 x.val

/-! ## The decoder: two levels (R64) -/

/-- Family 0: the selector is the whole of `NNN` (R67). -/
def decode0 (op : Word) : Option Instr :=
  match fieldNNN op with
  | 0x0E0#12 => some .cls
  | 0x0EE#12 => some .ret
  | _ => none

/-- Family 5: the low nibble must be 0 (R68). -/
def decode5 (op : Word) : Option Instr :=
  match fieldN op with
  | 0x0#4 => some (.seReg (fieldX op) (fieldY op))
  | _ => none

/-- Family 8: the selector is the low nibble (R69). -/
def decode8 (op : Word) : Option Instr :=
  match fieldN op with
  | 0x0#4 => some (.ldReg (fieldX op) (fieldY op))
  | 0x1#4 => some (.orReg (fieldX op) (fieldY op))
  | 0x2#4 => some (.andReg (fieldX op) (fieldY op))
  | 0x3#4 => some (.xorReg (fieldX op) (fieldY op))
  | 0x4#4 => some (.addReg (fieldX op) (fieldY op))
  | 0x5#4 => some (.subReg (fieldX op) (fieldY op))
  | 0x6#4 => some (.shr (fieldX op) (fieldY op))
  | 0x7#4 => some (.subnReg (fieldX op) (fieldY op))
  | 0xE#4 => some (.shl (fieldX op) (fieldY op))
  | _ => none

/-- Family 9: the low nibble must be 0 (R68). -/
def decode9 (op : Word) : Option Instr :=
  match fieldN op with
  | 0x0#4 => some (.sneReg (fieldX op) (fieldY op))
  | _ => none

/-- Family E: the selector is the full low byte (R69). -/
def decodeE (op : Word) : Option Instr :=
  match fieldKK op with
  | 0x9E#8 => some (.skp (fieldX op))
  | 0xA1#8 => some (.sknp (fieldX op))
  | _ => none

/-- Family F: the selector is the full low byte (R69). -/
def decodeF (op : Word) : Option Instr :=
  match fieldKK op with
  | 0x07#8 => some (.ldVxDT (fieldX op))
  | 0x0A#8 => some (.ldVxK (fieldX op))
  | 0x15#8 => some (.ldDT (fieldX op))
  | 0x18#8 => some (.ldST (fieldX op))
  | 0x1E#8 => some (.addI (fieldX op))
  | 0x29#8 => some (.ldF (fieldX op))
  | 0x33#8 => some (.ldB (fieldX op))
  | 0x55#8 => some (.stRegs (fieldX op))
  | 0x65#8 => some (.ldRegs (fieldX op))
  | _ => none

/-- The top nibble selects the family, and six families are decoded further (R64, R82). `none` is an
unknown instruction (R66); the last arm is never reached, since all sixteen families are named. -/
def decodeWord (op : Word) : Option Instr :=
  match fieldF op with
  | 0x0#4 => decode0 op
  | 0x1#4 => some (.jp (fieldNNN op))
  | 0x2#4 => some (.call (fieldNNN op))
  | 0x3#4 => some (.seByte (fieldX op) (fieldKK op))
  | 0x4#4 => some (.sneByte (fieldX op) (fieldKK op))
  | 0x5#4 => decode5 op
  | 0x6#4 => some (.ldByte (fieldX op) (fieldKK op))
  | 0x7#4 => some (.addByte (fieldX op) (fieldKK op))
  | 0x8#4 => decode8 op
  | 0x9#4 => decode9 op
  | 0xA#4 => some (.ldI (fieldNNN op))
  | 0xB#4 => some (.jpV0 (fieldNNN op))
  | 0xC#4 => some (.rnd (fieldX op) (fieldKK op))
  | 0xD#4 => some (.drw (fieldX op) (fieldY op) (fieldN op).toNat)
  | 0xE#4 => decodeE op
  | 0xF#4 => decodeF op
  | _ => none

/-- Why bytes are no instruction. -/
inductive Reject where
  /-- The opcode matches no row of the opcode map (R66). -/
  | unknownInstruction (op : Word)
  /-- Fewer than the two bytes every instruction has (R60). -/
  | truncated
  deriving DecidableEq, Repr

/-- Decode the instruction at the front of a byte sequence: two bytes, big-endian (R60). -/
def decode : List Byte → Except Reject (Instr × List Byte)
  | hi :: lo :: rest =>
    match decodeWord (wordOfBytes hi lo) with
    | some i => .ok (i, rest)
    | none => .error (.unknownInstruction (wordOfBytes hi lo))
  | _ => .error .truncated

/-- The bytes of an opcode as memory holds them, lowest address first (R46). -/
def bytesOfWord (op : Word) : List Byte := [hiByte op, loByte op]

/-- The host's view of the decoder: the instruction of a word numbered as spec/opcode_table.json
numbers it. -/
def decodeTableWord (nbits w : Nat) : Option Instr :=
  match decode (bytesOfWord (BitVec.ofNat 16 (w % 2 ^ nbits))) with
  | .ok (i, _) => some i
  | .error _ => none

/-! ## The opcode map as a table (R65) -/

/-- A row of the opcode map: an opcode selects it when `op & mask = code` (R65). -/
structure Row where
  pattern : String
  code : Word
  mask : Word
  build : Word → Instr

/-- The opcode selects the row (R65). -/
def Row.selects (r : Row) (op : Word) : Bool := op &&& r.mask == r.code

/-- Rows 1 to 9 of R65. -/
def opcodeRows1 : List Row := [
  ⟨"00E0", 0x00E0#16, 0xFFFF#16, fun _ => .cls⟩,
  ⟨"00EE", 0x00EE#16, 0xFFFF#16, fun _ => .ret⟩,
  ⟨"1NNN", 0x1000#16, 0xF000#16, fun op => .jp (fieldNNN op)⟩,
  ⟨"2NNN", 0x2000#16, 0xF000#16, fun op => .call (fieldNNN op)⟩,
  ⟨"3XKK", 0x3000#16, 0xF000#16, fun op => .seByte (fieldX op) (fieldKK op)⟩,
  ⟨"4XKK", 0x4000#16, 0xF000#16, fun op => .sneByte (fieldX op) (fieldKK op)⟩,
  ⟨"5XY0", 0x5000#16, 0xF00F#16, fun op => .seReg (fieldX op) (fieldY op)⟩,
  ⟨"6XKK", 0x6000#16, 0xF000#16, fun op => .ldByte (fieldX op) (fieldKK op)⟩,
  ⟨"7XKK", 0x7000#16, 0xF000#16, fun op => .addByte (fieldX op) (fieldKK op)⟩]

/-- Rows 10 to 19 of R65. -/
def opcodeRows2 : List Row := [
  ⟨"8XY0", 0x8000#16, 0xF00F#16, fun op => .ldReg (fieldX op) (fieldY op)⟩,
  ⟨"8XY1", 0x8001#16, 0xF00F#16, fun op => .orReg (fieldX op) (fieldY op)⟩,
  ⟨"8XY2", 0x8002#16, 0xF00F#16, fun op => .andReg (fieldX op) (fieldY op)⟩,
  ⟨"8XY3", 0x8003#16, 0xF00F#16, fun op => .xorReg (fieldX op) (fieldY op)⟩,
  ⟨"8XY4", 0x8004#16, 0xF00F#16, fun op => .addReg (fieldX op) (fieldY op)⟩,
  ⟨"8XY5", 0x8005#16, 0xF00F#16, fun op => .subReg (fieldX op) (fieldY op)⟩,
  ⟨"8XY6", 0x8006#16, 0xF00F#16, fun op => .shr (fieldX op) (fieldY op)⟩,
  ⟨"8XY7", 0x8007#16, 0xF00F#16, fun op => .subnReg (fieldX op) (fieldY op)⟩,
  ⟨"8XYE", 0x800E#16, 0xF00F#16, fun op => .shl (fieldX op) (fieldY op)⟩,
  ⟨"9XY0", 0x9000#16, 0xF00F#16, fun op => .sneReg (fieldX op) (fieldY op)⟩]

/-- Rows 20 to 34 of R65. -/
def opcodeRows3 : List Row := [
  ⟨"ANNN", 0xA000#16, 0xF000#16, fun op => .ldI (fieldNNN op)⟩,
  ⟨"BNNN", 0xB000#16, 0xF000#16, fun op => .jpV0 (fieldNNN op)⟩,
  ⟨"CXKK", 0xC000#16, 0xF000#16, fun op => .rnd (fieldX op) (fieldKK op)⟩,
  ⟨"DXYN", 0xD000#16, 0xF000#16, fun op => .drw (fieldX op) (fieldY op) (fieldN op).toNat⟩,
  ⟨"EX9E", 0xE09E#16, 0xF0FF#16, fun op => .skp (fieldX op)⟩,
  ⟨"EXA1", 0xE0A1#16, 0xF0FF#16, fun op => .sknp (fieldX op)⟩,
  ⟨"FX07", 0xF007#16, 0xF0FF#16, fun op => .ldVxDT (fieldX op)⟩,
  ⟨"FX0A", 0xF00A#16, 0xF0FF#16, fun op => .ldVxK (fieldX op)⟩,
  ⟨"FX15", 0xF015#16, 0xF0FF#16, fun op => .ldDT (fieldX op)⟩,
  ⟨"FX18", 0xF018#16, 0xF0FF#16, fun op => .ldST (fieldX op)⟩,
  ⟨"FX1E", 0xF01E#16, 0xF0FF#16, fun op => .addI (fieldX op)⟩,
  ⟨"FX29", 0xF029#16, 0xF0FF#16, fun op => .ldF (fieldX op)⟩,
  ⟨"FX33", 0xF033#16, 0xF0FF#16, fun op => .ldB (fieldX op)⟩,
  ⟨"FX55", 0xF055#16, 0xF0FF#16, fun op => .stRegs (fieldX op)⟩,
  ⟨"FX65", 0xF065#16, 0xF0FF#16, fun op => .ldRegs (fieldX op)⟩]

/-- The opcode map of R65, row by row. The decoder above does not use it: that the two agree is a
claim. -/
def opcodeTable : List Row := opcodeRows1 ++ opcodeRows2 ++ opcodeRows3

/-! ## The encoder -/

/-- Format `FNNN` (R62). -/
def encodeFNNN (f : BitVec 4) (nnn : Addr) : Word := f ++ nnn

/-- Format `FXKK` (R62). -/
def encodeFXKK (f : BitVec 4) (x : RegIx) (kk : Byte) : Word := f ++ (regBits x ++ kk)

/-- Format `FXYN` (R62). -/
def encodeFXYN (f : BitVec 4) (x y : RegIx) (n : BitVec 4) : Word :=
  f ++ (regBits x ++ (regBits y ++ n))

/-- The opcode of an instruction, from the patterns of R65. -/
def encode : Instr → Word
  | .cls => encodeFNNN 0x0#4 0x0E0#12
  | .ret => encodeFNNN 0x0#4 0x0EE#12
  | .jp nnn => encodeFNNN 0x1#4 nnn
  | .call nnn => encodeFNNN 0x2#4 nnn
  | .seByte x kk => encodeFXKK 0x3#4 x kk
  | .sneByte x kk => encodeFXKK 0x4#4 x kk
  | .seReg x y => encodeFXYN 0x5#4 x y 0x0#4
  | .ldByte x kk => encodeFXKK 0x6#4 x kk
  | .addByte x kk => encodeFXKK 0x7#4 x kk
  | .ldReg x y => encodeFXYN 0x8#4 x y 0x0#4
  | .orReg x y => encodeFXYN 0x8#4 x y 0x1#4
  | .andReg x y => encodeFXYN 0x8#4 x y 0x2#4
  | .xorReg x y => encodeFXYN 0x8#4 x y 0x3#4
  | .addReg x y => encodeFXYN 0x8#4 x y 0x4#4
  | .subReg x y => encodeFXYN 0x8#4 x y 0x5#4
  | .shr x y => encodeFXYN 0x8#4 x y 0x6#4
  | .subnReg x y => encodeFXYN 0x8#4 x y 0x7#4
  | .shl x y => encodeFXYN 0x8#4 x y 0xE#4
  | .sneReg x y => encodeFXYN 0x9#4 x y 0x0#4
  | .ldI nnn => encodeFNNN 0xA#4 nnn
  | .jpV0 nnn => encodeFNNN 0xB#4 nnn
  | .rnd x kk => encodeFXKK 0xC#4 x kk
  | .drw x y n => encodeFXYN 0xD#4 x y (BitVec.ofNat 4 n)
  | .skp x => encodeFXKK 0xE#4 x 0x9E#8
  | .sknp x => encodeFXKK 0xE#4 x 0xA1#8
  | .ldVxDT x => encodeFXKK 0xF#4 x 0x07#8
  | .ldVxK x => encodeFXKK 0xF#4 x 0x0A#8
  | .ldDT x => encodeFXKK 0xF#4 x 0x15#8
  | .ldST x => encodeFXKK 0xF#4 x 0x18#8
  | .addI x => encodeFXKK 0xF#4 x 0x1E#8
  | .ldF x => encodeFXKK 0xF#4 x 0x29#8
  | .ldB x => encodeFXKK 0xF#4 x 0x33#8
  | .stRegs x => encodeFXKK 0xF#4 x 0x55#8
  | .ldRegs x => encodeFXKK 0xF#4 x 0x65#8

end Sys2Proof
end

