-- ==== Sys2Proof/Machine/Memory.lean ====
section
/-! DEFINITION. Memory as data: the 4096 bytes of 20_memory.md R40, held as the list of those that
differ from their reset contents (log entry 5). -/

namespace Sys2Proof.Machine

/-- What an address holds right after a reset that installs this font (R24, R41, R57): the font at
0x050 to 0x09F, zero elsewhere. -/
def resetByte (font : Font) (a : Nat) : Byte :=
  if h : fontBase ≤ a ∧ a < fontBase + 80 then font[a - fontBase] else 0x00#8

/-- What an address holds right after reset, with the font of `params`. It is what an address that
memory does not list reads as, whichever font was installed (log entry 5). -/
def initialByte (a : Nat) : Byte := resetByte params.font a

/-- The memory array: the bytes that differ from `initialByte`, by rising address. -/
abbrev Memory := List Host.Cell

/-- Every listed cell lies at or above address `lo`, below 4096, and differs from its reset content,
and addresses strictly rise. -/
def Memory.wfFrom (lo : Nat) : Memory → Bool
  | [] => true
  | (a, b) :: m => decide (lo ≤ a) && decide (a < memSize) && decide (b ≠ initialByte a) &&
      Memory.wfFrom (a + 1) m

/-- The canonical form, in which equal memories are equal lists (log entry 5). -/
def Memory.wf (m : Memory) : Bool := Memory.wfFrom 0 m

/-- The content of one byte of memory. -/
def Memory.byte : Memory → Nat → Byte
  | [], a => initialByte a
  | (k, b) :: m, a => if a = k then b else Memory.byte m a

/-- Put a cell in front, unless it holds its reset content. -/
def Memory.consCell (a : Nat) (b : Byte) (m : Memory) : Memory :=
  if b = initialByte a then m else (a, b) :: m

/-- Set one byte in the sorted list, keeping the canonical form. -/
def Memory.insert : Memory → Nat → Byte → Memory
  | [], a, b => Memory.consCell a b []
  | (k, c) :: m, a, b =>
    if a < k then Memory.consCell a b ((k, c) :: m)
    else if a = k then Memory.consCell a b m
    else (k, c) :: Memory.insert m a b

/-- `mem[a] <- b`. An address above 0xFFF does not exist: no byte is written (R44). -/
def Memory.set (m : Memory) (a : Nat) (b : Byte) : Memory :=
  if a < memSize then Memory.insert m a b else m

/-- The `n` bytes at `base`, `base + 1`, ..., in ascending address order (R56). -/
def Memory.bytes (m : Memory) (base : Nat) : Nat → List Byte
  | 0 => []
  | n + 1 => Memory.byte m base :: Memory.bytes m (base + 1) n

/-- Store a list of bytes at `base`, `base + 1`, ..., in ascending address order (R56). -/
def Memory.setBytes (m : Memory) (base : Nat) : List Byte → Memory
  | [] => m
  | b :: bs => Memory.setBytes (Memory.set m base b) (base + 1) bs

/-- Memory right after a reset that installs this font at 0x050, zero elsewhere (R24, R57). With the
font of `params` nothing is listed. -/
def Memory.withFont (font : Font) : Memory := Memory.setBytes [] fontBase font.toList

end Sys2Proof.Machine
end

