-- ==== Sys2Proof/Machine/State.lean ====
section
/-! DEFINITION. The state of the machine (10_state.md R10), its reset value (R24), and the ways a
step or a load can end without a next state (60_exceptions.md R170, R171). -/

namespace Sys2Proof.Machine

/-- The framebuffer: 32 rows (top to bottom) of 64 pixels (left to right), each on or off (R21). -/
abbrev Framebuffer := Vector (Vector Bool 64) 32

/-- The key vector: `true` means the key is pressed now (R20). -/
abbrev Keys := Vector Bool 16

/-- Everything that persists from one cycle to the next (R10), and one field of the model's own. -/
structure State where
  /-- `mem`, 4096 bytes (R26, R40). -/
  mem : Memory
  /-- `V[0]` to `V[15]` (R11); `V[15]` is VF (R12). -/
  v : Vector Byte 16
  /-- `I`, the index register (R14). -/
  i : Word
  /-- `pc`: between cycles the address of the next instruction; while an instruction's rule runs,
  that address plus 2 (R15, R86). -/
  pc : Word
  /-- `stack[0]` to `stack[15]`, return addresses (R16). -/
  stack : Vector Word 16
  /-- `sp`, the number of return addresses on the stack, 0 to 16 (R17). -/
  sp : Fin 17
  /-- `DT`, the delay timer (R18). -/
  dt : Byte
  /-- `ST`, the sound timer (R19). -/
  st : Byte
  /-- `keys`, as the host last wrote them (R20, R87). -/
  keys : Keys
  /-- `fb`, the framebuffer (R21). -/
  fb : Framebuffer
  /-- THE MODEL'S OWN: how many random bytes have been drawn. It stands for the inside of `rng`
  (R22); the next byte is the free value `Config.freeByte draws` (log entry 4). -/
  draws : Nat
  deriving DecidableEq, Repr

/-- The state after `reset`, which is also the state at construction (R24, R25, R201): memory at its
reset contents, everything zero, no key pressed, all pixels off, `pc` at 0x200. -/
def State.reset : State where
  mem := []
  v := Vector.replicate 16 0x00#8
  i := 0x0000#16
  pc := 0x0200#16
  stack := Vector.replicate 16 0x0000#16
  sp := 0
  dt := 0x00#8
  st := 0x00#8
  keys := Vector.replicate 16 false
  fb := Vector.replicate 32 (Vector.replicate 64 false)
  draws := 0

/-- What an access to memory was for (R171, `info` of cause 4). -/
inductive AccessKind where
  | fetch
  | read
  | write
  deriving DecidableEq, Repr

/-- The fault record of R170 by cause (R171): `op` the opcode, `pcFetch` the address it was fetched
from, then the cause's `info`. A fault leaves the machine in the state the cycle began in, so the
outcome carries no state (log entry 6). Every cause is the spec's own; stopping there is safe. -/
inductive Fault where
  /-- Cause 1, raised by the decode phase of `step`: no row of the opcode map matches (R66, R172).
  Safe. -/
  | unknownInstruction (op pcFetch : Word)
  /-- Cause 2, raised by `2NNN` when `sp = 16` (R121, R173). Safe. -/
  | stackOverflow (op pcFetch : Word) (sp : Nat)
  /-- Cause 3, raised by `00EE` when `sp = 0` (R122, R174). Safe. -/
  | stackUnderflow (op pcFetch : Word) (sp : Nat)
  /-- Cause 4, raised by the fetch phase (then there is no opcode) and by `DXYN`, `FX33`, `FX55` and
  `FX65`: the lowest address above 0xFFF that would have been touched (R56, R175). Safe. -/
  | memoryOutOfRange (op : Option Word) (pcFetch : Word) (addr : Nat) (kind : AccessKind)
  /-- Cause 5, raised by `EX9E` and `EXA1` when `V[X] > 15` (R176). Safe. -/
  | keyIndexOutOfRange (op pcFetch : Word) (value : Byte)
  /-- Cause 6, raised by the host command `load`, never by `step`: the image has more than 3584
  bytes (R177, R202). Safe. -/
  | romTooLarge (len : Nat)
  deriving DecidableEq, Repr

/-- Why the model has no meaning for an instruction. -/
inductive Refusal where
  /-- Raised by an arm of `exec` whose instruction is not modelled; no arm of this model is. Safe. -/
  | notModelled (mnemonic : String)
  deriving DecidableEq, Repr

end Sys2Proof.Machine
end

