-- ==== Sys2Proof/Machine/Ops.lean ====
section
/-! DEFINITION. The named operations over registers, memory, stack, framebuffer and timers, and the
raising of a fault. -/

namespace Sys2Proof.Machine

/-- How an instruction or a step ends. -/
abbrev Outcome := Host.Outcome State Fault Refusal

/-! ## Registers -/

/-- `V[x]` (R11). -/
def State.reg (s : State) (x : RegIx) : Byte := s.v.get x

/-- `V[x] <- b` (R11). -/
def State.setReg (s : State) (x : RegIx) (b : Byte) : State := { s with v := s.v.set x b }

/-- `skip`: `pc <- pc + 2` on top of the advance made by fetch (R92). -/
def State.skip (s : State) : State := { s with pc := s.pc + 2 }

/-! ## Faults (R170)

The one operation by which an instruction's rule ends in a fault. There is no vector, no handler, no
mode or mask change and no saved register: the record goes to the host and the state stays as it was
before the cycle (R170, R180), so nothing returns from a fault and no return operation exists. -/

/-- End the rule of instruction `i` in a fault, whose record holds the opcode and the address it was
fetched from. While a rule runs `pc` is `pc_fetch + 2` (R86), so that address is `pc - 2`. -/
def raise (i : Instr) (s : State) (fault : Word → Word → Fault) : Outcome :=
  .fault (fault (encode i) (s.pc - 2))

/-- `raise MemoryOutOfRange(addr, kind)` in an instruction's rule (R175). -/
def raiseOutOfRange (i : Instr) (s : State) (addr : Nat) (kind : AccessKind) : Outcome :=
  raise i s fun op pcFetch => .memoryOutOfRange (some op) pcFetch addr kind

/-- The numeric code of a cause (R171). -/
def Fault.code : Fault → Nat
  | .unknownInstruction .. => 1
  | .stackOverflow .. => 2
  | .stackUnderflow .. => 3
  | .memoryOutOfRange .. => 4
  | .keyIndexOutOfRange .. => 5
  | .romTooLarge .. => 6

/-- The field `op` of the record: absent when the fetch itself faulted (R170). -/
def Fault.op : Fault → Option Word
  | .unknownInstruction op _ => some op
  | .stackOverflow op _ _ => some op
  | .stackUnderflow op _ _ => some op
  | .memoryOutOfRange op _ _ _ => op
  | .keyIndexOutOfRange op _ _ => some op
  | .romTooLarge _ => none

/-- The field `pc_fetch` of the record (R170); a rejected `load` has none. -/
def Fault.pcFetch : Fault → Option Word
  | .unknownInstruction _ pcFetch => some pcFetch
  | .stackOverflow _ pcFetch _ => some pcFetch
  | .stackUnderflow _ pcFetch _ => some pcFetch
  | .memoryOutOfRange _ pcFetch _ _ => some pcFetch
  | .keyIndexOutOfRange _ pcFetch _ => some pcFetch
  | .romTooLarge _ => none

/-! ## Memory ranges -/

/-- The lowest address above 0xFFF among the `len` addresses from `base`, if there is one (R56).
Addresses are natural numbers and are never reduced (R45). -/
def lowestBad (base len : Nat) : Option Nat :=
  if len = 0 ∨ base + len ≤ memSize then none else some (max base memSize)

/-! ## The call stack (R16, R17) -/

/-- Push a return address: `stack[sp] <- a`, `sp <- sp + 1`; `none` when all 16 entries are in use. -/
def State.push (s : State) (a : Word) : Option State :=
  if h : s.sp.val < 16 then
    some { s with stack := s.stack.set s.sp.val a, sp := ⟨s.sp.val + 1, by omega⟩ }
  else none

/-- Pop a return address: `sp <- sp - 1`, then read `stack[sp]`, which keeps its value; `none` when
the stack is empty. -/
def State.pop (s : State) : Option (Word × State) :=
  if h : 0 < s.sp.val then
    some (s.stack[s.sp.val - 1], { s with sp := ⟨s.sp.val - 1, by omega⟩ })
  else none

/-! ## The framebuffer (R21) -/

/-- The framebuffer with every pixel off. -/
def Framebuffer.off : Framebuffer := Vector.replicate 32 (Vector.replicate 64 false)

/-- `fb[y][x]`. -/
def Framebuffer.pixel (fb : Framebuffer) (y : Fin 32) (x : Fin 64) : Bool := fb[y][x]

/-- `fb[y][x] <- not fb[y][x]`. -/
def Framebuffer.toggle (fb : Framebuffer) (y : Fin 32) (x : Fin 64) : Framebuffer :=
  fb.set y (fb[y].set x (!fb[y][x]))

/-! ## Keys (R20) -/

/-- The lowest-indexed pressed key, if any key is pressed (R152). -/
def lowestPressed (keys : Keys) : Option (Fin 16) := (List.finRange 16).find? fun k => keys[k]

/-! ## Timers (R84) -/

/-- One tick of one timer: down by 1, but 0 stays 0. -/
def tickTimer (t : Byte) : Byte := if t = 0x00#8 then 0x00#8 else t - 1

/-- The tick of a cycle: both timers, independently. -/
def State.tick (s : State) : State := { s with dt := tickTimer s.dt, st := tickTimer s.st }

end Sys2Proof.Machine
end

