-- ==== Sys2Proof/Machine/Cycle.lean ====
section
/-! DEFINITION. The phases of a cycle around the execute phase (40_step_cycle.md R80 to R84). -/

namespace Sys2Proof.Machine

/-- The opcode at an address: two bytes, big-endian (R46). -/
def Memory.word (m : Memory) (a : Nat) : Word := wordOfBytes (m.byte a) (m.byte (a + 1))

/-- Phase 1, fetch: the opcode at `pc`, or a fault when one of its two bytes lies above 0xFFF, with
no opcode in the record (R81). -/
def fetch (s : State) : Except Fault Word :=
  match lowestBad s.pc.toNat 2 with
  | some a => .error (.memoryOutOfRange none s.pc a .fetch)
  | none => .ok (s.mem.word s.pc.toNat)

/-- The advance of `pc` that fetch makes before the instruction runs (R81, R86). -/
def State.advance (s : State) : State := { s with pc := s.pc + 2 }

/-- Phase 4, tick, of a successful cycle; a fault ends the cycle as it is and does not tick (R84). -/
def finishCycle : Outcome → Outcome
  | .next t => .next t.tick
  | .fault f => .fault f
  | .refused r => .refused r

/-- Store the bytes of an opcode at an address, high byte first (R46). -/
def Memory.setWord (m : Memory) (a : Nat) (op : Word) : Memory := m.setBytes a (bytesOfWord op)

end Sys2Proof.Machine
end

