-- ==== Sys2Proof/Machine/Flags.lean ====
section
/-! DEFINITION. Every flag the machine computes (10_state.md R12). A flag is the whole byte 0 or 1. -/

namespace Sys2Proof.Machine

/-- `b2n(c)` as the byte written to VF (R12). -/
def flagByte (c : Bool) : Byte := if c then 0x01#8 else 0x00#8

/-- The carry of `a + b`: 1 if the untruncated sum exceeds 255 (R105). -/
def carryFlag (a b : Byte) : Byte := flagByte (decide (a.toNat + b.toNat > 255))

/-- The flag of `a - b`: 1 if `a > b`, strictly; equal operands give 0 (R106, R209). -/
def greaterFlag (a b : Byte) : Byte := flagByte (decide (a.toNat > b.toNat))

/-- The flag of SHR: bit 0 before the shift (R107). -/
def shrFlag (a : Byte) : Byte := flagByte (a.getLsbD 0)

/-- The flag of SHL: bit 7 before the shift (R109). -/
def shlFlag (a : Byte) : Byte := flagByte (a.getLsbD 7)

/-- The flag of DRW: 1 on a collision (R141). -/
def collisionFlag (hit : Bool) : Byte := flagByte hit

end Sys2Proof.Machine
end

