-- ==== Sys2Proof/Machine/Operands.lean ====
section
/-! DEFINITION. The operand forms: how a rule reads its sources and lands its result (10_state.md
R13, 30_encoding.md R63). Sources are read from the state the rule starts in, before any write. -/

namespace Sys2Proof.Machine

/-- An address immediate, zero-extended to 16 bits (R63). -/
def addrWord (nnn : Addr) : Word := nnn.setWidth 16

/-- A register value zero-extended to 16 bits, as a summand of `I` or of a jump target (R110). -/
def byteWord (b : Byte) : Word := b.setWidth 16

/-- The operand of SHR and SHL (R107, R109): `V[X]`; under the other value of `SHIFT_SOURCE`, `V[Y]`. -/
def shiftOperand (src : ShiftSource) (x y : RegIx) (s : State) : Byte :=
  match src with
  | .vx => s.reg x
  | .vy => s.reg y

/-- A result with no flag goes to its register alone (R100). -/
def writeResult (x : RegIx) (result : Byte) (s : State) : Outcome := .next (s.setReg x result)

/-- A flag and a result: the flag to VF first, the result to its register second, so with `X = F` VF
ends as the result (R13, R100). -/
def writeFlagResult (x : RegIx) (flag result : Byte) (s : State) : Outcome :=
  .next ((s.setReg vf flag).setReg x result)

/-- `if c then skip` (R92). -/
def skipIf (c : Bool) (s : State) : Outcome := .next (if c then s.skip else s)

/-- The registers `V[0]` to `V[X]` in ascending order, the block of FX55 (R134). -/
def regBlock (x : RegIx) (s : State) : List Byte :=
  (List.finRange 16).filterMap fun k => if k ≤ x then some (s.reg k) else none

/-- Registers `V[0]`, `V[1]`, ... receive the bytes of a list in ascending order (R135). -/
def State.setRegs (s : State) : Nat → List Byte → State
  | _, [] => s
  | k, b :: bs => if h : k < 16 then State.setRegs (s.setReg ⟨k, h⟩ b) (k + 1) bs else s

/-! ## The sprite of DXYN (R141 to R143) -/

/-- The pixel that sprite row `r`, column `c` addresses for a draw origin `(x0, y0)`: under `clip` a
pixel past the right or bottom edge is not drawn (R143); under `wrap` it wraps pixel by pixel
(93_implementation_defined.md U2). -/
def spriteTarget (edge : DrwEdge) (x0 y0 r c : Nat) : Option (Fin 32 × Fin 64) :=
  match edge with
  | .clip =>
    if h : y0 + r < 32 ∧ x0 + c < 64 then some (⟨y0 + r, h.1⟩, ⟨x0 + c, h.2⟩) else none
  | .wrap =>
    some (⟨(y0 + r) % 32, Nat.mod_lt _ (by decide)⟩, ⟨(x0 + c) % 64, Nat.mod_lt _ (by decide)⟩)

/-- The pixels addressed by the set bits of sprite row `r`: column `c` is bit `7 - c` (R142). -/
def rowTargets (edge : DrwEdge) (x0 y0 r : Nat) (b : Byte) : List (Fin 32 × Fin 64) :=
  (List.range 8).filterMap fun c =>
    if b.getLsbD (7 - c) then spriteTarget edge x0 y0 r c else none

/-- The pixels addressed by the set bits of the sprite rows `r`, `r + 1`, ... -/
def spriteTargets (edge : DrwEdge) (x0 y0 : Nat) : Nat → List Byte → List (Fin 32 × Fin 64)
  | _, [] => []
  | r, b :: bs => rowTargets edge x0 y0 r b ++ spriteTargets edge x0 y0 (r + 1) bs

/-- XOR one addressed pixel with 1, and note a collision when it was on (R141). -/
def drawPixel (acc : Framebuffer × Bool) (p : Fin 32 × Fin 64) : Framebuffer × Bool :=
  (acc.1.toggle p.1 p.2, acc.2 || acc.1.pixel p.1 p.2)

/-- XOR a sprite into the framebuffer and say whether any pixel went from on to off (R141). -/
def drawSprite (edge : DrwEdge) (fb : Framebuffer) (x0 y0 : Nat) (sprite : List Byte) :
    Framebuffer × Bool :=
  (spriteTargets edge x0 y0 0 sprite).foldl drawPixel (fb, false)

end Sys2Proof.Machine
end

