-- ==== Sys2Proof/Machine/Alu.lean ====
section
/-! DEFINITION. Register/register ALU instructions (42_alu.md R100 to R110). -/

namespace Sys2Proof.Machine

/-- `8XY0`: `V[X] <- V[Y]` (R101). -/
def execLdReg (x y : RegIx) (s : State) : Outcome := writeResult x (s.reg y) s

/-- `8XY1`: `V[X] <- a | b`; no flag (R102). -/
def execOrReg (x y : RegIx) (s : State) : Outcome := writeResult x (s.reg x ||| s.reg y) s

/-- `8XY2`: `V[X] <- a & b`; no flag (R103). -/
def execAndReg (x y : RegIx) (s : State) : Outcome := writeResult x (s.reg x &&& s.reg y) s

/-- `8XY3`: `V[X] <- a ^ b`; no flag (R104). -/
def execXorReg (x y : RegIx) (s : State) : Outcome := writeResult x (s.reg x ^^^ s.reg y) s

/-- `8XY4`: VF gets the carry, `V[X]` the sum modulo 256 (R105). -/
def execAddReg (x y : RegIx) (s : State) : Outcome :=
  writeFlagResult x (carryFlag (s.reg x) (s.reg y))
    (BitVec.ofNat 8 ((s.reg x).toNat + (s.reg y).toNat)) s

/-- `8XY5`: VF gets 1 if `V[X] > V[Y]`, `V[X]` the difference modulo 256 (R106). -/
def execSubReg (x y : RegIx) (s : State) : Outcome :=
  writeFlagResult x (greaterFlag (s.reg x) (s.reg y))
    (BitVec.ofNat 8 (256 + (s.reg x).toNat - (s.reg y).toNat)) s

/-- `8XY6`: VF gets bit 0 of the operand, `V[X]` the operand shifted right by 1 (R107). -/
def execShr (x y : RegIx) (s : State) : Outcome :=
  writeFlagResult x (shrFlag (shiftOperand params.shiftSource x y s))
    (BitVec.ofNat 8 ((shiftOperand params.shiftSource x y s).toNat / 2)) s

/-- `8XY7`: VF gets 1 if `V[Y] > V[X]`, `V[X]` gets `V[Y] - V[X]` modulo 256 (R108). -/
def execSubnReg (x y : RegIx) (s : State) : Outcome :=
  writeFlagResult x (greaterFlag (s.reg y) (s.reg x))
    (BitVec.ofNat 8 (256 + (s.reg y).toNat - (s.reg x).toNat)) s

/-- `8XYE`: VF gets bit 7 of the operand, `V[X]` the operand shifted left by 1 (R109). -/
def execShl (x y : RegIx) (s : State) : Outcome :=
  writeFlagResult x (shlFlag (shiftOperand params.shiftSource x y s))
    (BitVec.ofNat 8 (2 * (shiftOperand params.shiftSource x y s).toNat)) s

end Sys2Proof.Machine
end

