-- ==== Sys2Proof/Machine/Control.lean ====
section
/-! DEFINITION. Control transfer (43_control.md R120 to R124). A target is absolute and is not
checked when the transfer executes (R124). -/

namespace Sys2Proof.Machine

/-- `1NNN`: `pc <- NNN` (R120). -/
def execJp (nnn : Addr) (s : State) : Outcome := .next { s with pc := addrWord nnn }

/-- `2NNN`: push the already-advanced `pc`, then `pc <- NNN`; a full stack is a fault (R121). -/
def execCall (nnn : Addr) (s : State) : Outcome :=
  match s.push s.pc with
  | some t => .next { t with pc := addrWord nnn }
  | none => raise (.call nnn) s fun op pcFetch => .stackOverflow op pcFetch s.sp.val

/-- `00EE`: pop the return address into `pc`; an empty stack is a fault (R122). -/
def execRet (s : State) : Outcome :=
  match s.pop with
  | some (a, t) => .next { t with pc := a }
  | none => raise .ret s fun op pcFetch => .stackUnderflow op pcFetch s.sp.val

/-- `BNNN`: `pc <- V[0] + NNN`, a 16-bit sum not reduced modulo 4096 (R123). -/
def execJpV0 (nnn : Addr) (s : State) : Outcome :=
  .next { s with pc := byteWord (s.reg 0) + addrWord nnn }

end Sys2Proof.Machine
end

