-- ==== Sys2Proof/Machine/Display.lean ====
section
/-! DEFINITION. Framebuffer instructions (45_display.md R140 to R143). -/

namespace Sys2Proof.Machine

/-- `00E0`: every pixel off (R140). -/
def execCls (s : State) : Outcome := .next { s with fb := Framebuffer.off }

/-- `DXYN`: XOR the `N` sprite bytes at `I` into the framebuffer from the origin
`(V[X] mod 64, V[Y] mod 32)`; VF gets the collision flag. All `N` bytes are bounds-checked, those of
clipped rows too; `N = 0` reads nothing (R141, R142). -/
def execDrw (x y : RegIx) (n : Nat) (s : State) : Outcome :=
  match lowestBad s.i.toNat n with
  | some a => raiseOutOfRange (.drw x y n) s a .read
  | none =>
    match drawSprite params.drwEdge s.fb ((s.reg x).toNat % 64) ((s.reg y).toNat % 32)
        (s.mem.bytes s.i.toNat n) with
    | (fb, hit) => .next (State.setReg { s with fb := fb } vf (collisionFlag hit))

end Sys2Proof.Machine
end

