-- ==== Sys2Proof/Machine/Index.lean ====
section
/-! DEFINITION. Index register, BCD converter and block transfer (44_index_memory.md R130 to R135).
Every access checks its whole range before it does anything (20_memory.md R56). -/

namespace Sys2Proof.Machine

/-- `ANNN`: `I <- NNN` (R130). -/
def execLdI (nnn : Addr) (s : State) : Outcome := .next { s with i := addrWord nnn }

/-- `FX1E`: `I <- (I + V[X]) mod 65536`; no flag (R131). -/
def execAddI (x : RegIx) (s : State) : Outcome := .next { s with i := s.i + byteWord (s.reg x) }

/-- `FX29`: `I` gets the font address of the low nibble of `V[X]` (R132). -/
def execLdF (x : RegIx) (s : State) : Outcome :=
  .next { s with i := BitVec.ofNat 16 (fontBase + 5 * ((s.reg x).toNat % 16)) }

/-- The three decimal digits of a byte, hundreds first, one byte each (R133). -/
def bcdDigits (a : Byte) : List Byte :=
  [BitVec.ofNat 8 (a.toNat / 100), BitVec.ofNat 8 (a.toNat / 10 % 10), BitVec.ofNat 8 (a.toNat % 10)]

/-- `FX33`: the decimal digits of `V[X]` to `I`, `I + 1`, `I + 2` (R133). -/
def execLdB (x : RegIx) (s : State) : Outcome :=
  match lowestBad s.i.toNat 3 with
  | some a => raiseOutOfRange (.ldB x) s a .write
  | none => .next { s with mem := s.mem.setBytes s.i.toNat (bcdDigits (s.reg x)) }

/-- `FX55`: `V[0]` to `V[X]` to memory from `I` up; `I` is unchanged (R134). -/
def execStRegs (x : RegIx) (s : State) : Outcome :=
  match lowestBad s.i.toNat (x.val + 1) with
  | some a => raiseOutOfRange (.stRegs x) s a .write
  | none => .next { s with mem := s.mem.setBytes s.i.toNat (regBlock x s) }

/-- `FX65`: memory from `I` up to `V[0]` to `V[X]`; `I` is unchanged (R135). -/
def execLdRegs (x : RegIx) (s : State) : Outcome :=
  match lowestBad s.i.toNat (x.val + 1) with
  | some a => raiseOutOfRange (.ldRegs x) s a .read
  | none => .next (s.setRegs 0 (s.mem.bytes s.i.toNat (x.val + 1)))

end Sys2Proof.Machine
end

