-- ==== Sys2Proof/Machine/KeysTimers.lean ====
section
/-! DEFINITION. Key, timer and random instructions (46_keys_timers_random.md R150 to R156). -/

namespace Sys2Proof.Machine

/-- Whether the key numbered by a register's value is pressed; `none` when the value is above 15
(R150, R151). -/
def keyTest (k : Byte) (keys : Keys) : Option Bool :=
  if h : k.toNat < 16 then some keys[k.toNat] else none

/-- `EX9E`: skip if the key numbered `V[X]` is pressed; a number above 15 is a fault (R150). -/
def execSkp (x : RegIx) (s : State) : Outcome :=
  match keyTest (s.reg x) s.keys with
  | some pressed => skipIf pressed s
  | none => raise (.skp x) s fun op pcFetch => .keyIndexOutOfRange op pcFetch (s.reg x)

/-- `EXA1`: skip if the key numbered `V[X]` is not pressed; a number above 15 is a fault (R151). -/
def execSknp (x : RegIx) (s : State) : Outcome :=
  match keyTest (s.reg x) s.keys with
  | some pressed => skipIf (!pressed) s
  | none => raise (.sknp x) s fun op pcFetch => .keyIndexOutOfRange op pcFetch (s.reg x)

/-- `FX07`: `V[X] <- DT`, the value before this cycle's tick (R153). -/
def execLdVxDT (x : RegIx) (s : State) : Outcome := writeResult x s.dt s

/-- `FX0A`: the lowest pressed key to `V[X]`; with no key pressed `pc <- pc - 2`, so that the same
instruction is fetched again (R152). -/
def execLdVxK (x : RegIx) (s : State) : Outcome :=
  match lowestPressed s.keys with
  | some k => writeResult x (BitVec.ofNat 8 k.val) s
  | none => .next { s with pc := s.pc - 2 }

/-- `FX15`: `DT <- V[X]`; the tick of the same cycle follows (R154). -/
def execLdDT (x : RegIx) (s : State) : Outcome := .next { s with dt := s.reg x }

/-- `FX18`: `ST <- V[X]`; the tick of the same cycle follows (R155). -/
def execLdST (x : RegIx) (s : State) : Outcome := .next { s with st := s.reg x }

/-- `CXKK`: `V[X] <- rnd & KK`, where `rnd` is the next free byte; the draw is counted (R156, log
entry 4). -/
def execRnd (x : RegIx) (kk : Byte) (s : State) : Outcome :=
  writeResult x (Config.freeByte s.draws &&& kk) { s with draws := s.draws + 1 }

end Sys2Proof.Machine
end

