-- ==== Sys2Proof/Machine/RegImm.lean ====
section
/-! DEFINITION. Register/byte instructions and skips (41_reg_imm_and_skip.md R90 to R95). -/

namespace Sys2Proof.Machine

/-- `6XKK`: `V[X] <- KK` (R90). -/
def execLdByte (x : RegIx) (kk : Byte) (s : State) : Outcome := writeResult x kk s

/-- `7XKK`: `V[X] <- (V[X] + KK) mod 256`; no flag (R91). -/
def execAddByte (x : RegIx) (kk : Byte) (s : State) : Outcome :=
  writeResult x (BitVec.ofNat 8 ((s.reg x).toNat + kk.toNat)) s

/-- `3XKK`: skip if `V[X] == KK` (R92). -/
def execSeByte (x : RegIx) (kk : Byte) (s : State) : Outcome := skipIf (s.reg x == kk) s

/-- `4XKK`: skip if `V[X] != KK` (R93). -/
def execSneByte (x : RegIx) (kk : Byte) (s : State) : Outcome := skipIf (s.reg x != kk) s

/-- `5XY0`: skip if `V[X] == V[Y]` (R94). -/
def execSeReg (x y : RegIx) (s : State) : Outcome := skipIf (s.reg x == s.reg y) s

/-- `9XY0`: skip if `V[X] != V[Y]` (R95). -/
def execSneReg (x y : RegIx) (s : State) : Outcome := skipIf (s.reg x != s.reg y) s

end Sys2Proof.Machine
end

