-- ==== Sys2Proof/Machine/Step.lean ====
section
/-! DEFINITION. One cycle of the machine (40_step_cycle.md R80). -/

namespace Sys2Proof.Machine

/-- `step`: fetch, decode, execute, tick, in this order (R80). The keys are those the state holds and
the random byte is the free value at the state's draw count (R87). A fault in any phase is the
result, and the state is the one the cycle started from (R170). -/
def step (s : State) : Host.Outcome State Fault Refusal :=
  match fetch s with
  | .error f => .fault f
  | .ok op =>
    match decodeWord op with
    | none => .fault (.unknownInstruction op s.pc)
    | some i => finishCycle (exec i s.advance)

/-- The state with the instruction of a table word stored where `step` fetches next (log entry 7). -/
def State.withFetchWord (s : State) (nbits w : Nat) : State :=
  { s with mem := s.mem.setWord s.pc.toNat (BitVec.ofNat 16 (w % 2 ^ nbits)) }

end Sys2Proof.Machine
end

