-- ==== Sys2Proof/Machine/Commands.lean ====
section
/-! DEFINITION. What the host can do to the machine between cycles (00_scope.md R2, R27;
70_reset_and_hazards.md R200, R202; 60_exceptions.md R184, R185). -/

namespace Sys2Proof.Machine

/-- `load(bytes)`: copy the image to memory from 0x200 up and change nothing else; more than 3584
bytes are rejected whole (R202, R177). -/
def load (bytes : List Byte) (s : State) : Host.Outcome State Fault Refusal :=
  if bytes.length ≤ maxRom then .next { s with mem := s.mem.setBytes progBase bytes }
  else .fault (.romTooLarge bytes.length)

/-- The state after `reset` on hardware with this font, the configuration field `FONT` of R57. With
the font of `params` it is `State.reset`. -/
def State.resetWith (font : Font) : State := { State.reset with mem := Memory.withFont font }

/-- `reset`: every element to its reset value, the font installed anew (R200, R57). The model's draw
counter goes on, so that the bytes drawn after a reset are related to none drawn before it (log
entry 4). -/
def resetCommand (font : Font) (s : State) : State := { State.resetWith font with draws := s.draws }

/-- The host writes the key vector, between cycles (R184). -/
def setKeys (keys : Keys) (s : State) : State := { s with keys := keys }

/-- The host reads a pixel (R185). -/
def pixel (s : State) (y : Fin 32) (x : Fin 64) : Bool := s.fb.pixel y x

/-- Everything the host can do that changes the machine (R2). -/
inductive Command where
  /-- `reset` (R200) -/
  | reset
  /-- `load(bytes)` (R202) -/
  | load (bytes : List Byte)
  /-- a write of the key port (R184) -/
  | setKeys (keys : Keys)
  /-- `step` (R80) -/
  | step
  deriving DecidableEq, Repr

/-- Perform one command of the host, on hardware with this font. -/
def perform (font : Font) (c : Command) (s : State) : Host.Outcome State Fault Refusal :=
  match c with
  | .reset => .next (resetCommand font s)
  | .load bytes => load bytes s
  | .setKeys keys => .next (setKeys keys s)
  | .step => step s

/-- Perform commands in the order the host issues them (R51), up to the first failure. -/
def performAll (font : Font) : List Command → State → Host.Outcome State Fault Refusal
  | [], s => .next s
  | c :: cs, s =>
    match perform font c s with
    | .next t => performAll font cs t
    | .fault f => .fault f
    | .refused r => .refused r

end Sys2Proof.Machine
end

