-- ==== Sys2Proof/Safety.lean ====
section
/-! DEFINITION. What counts as a good state and a safe run, in the terms claims use. -/

namespace Sys2Proof.Machine

/-- Every return address on the stack was pushed by a `2NNN`, so it is at most 0x1000 (43_control.md
R122). -/
abbrev State.StackInRange (s : State) : Prop :=
  ∀ k : Fin 16, k.val < s.sp.val → (s.stack.get k).toNat ≤ 0x1000

/-- The invariant of the machine: memory is in canonical form; the return addresses on the stack are
at most 0x1000; `pc` is at most 0x10FE, the largest value a successful cycle can leave (10_state.md
R15). -/
structure State.Inv (s : State) : Prop where
  mem : s.mem.wf = true
  stack : s.StackInRange
  pc : s.pc.toNat ≤ 0x10FE

/-- The next cycle succeeds. -/
def State.Runs (s : State) : Prop := ∃ t, step s = .next t

/-- The first `n` cycles all succeed. -/
def SafeRun : Nat → State → Prop
  | 0, _ => True
  | n + 1, s => ∃ t, step s = .next t ∧ SafeRun n t

/-- The idle convention by which a program ends: `pc` holds the address of a `1NNN` whose `NNN` is
that address (70_reset_and_hazards.md R204). -/
def State.SelfJump (s : State) : Prop :=
  ∃ nnn : Addr, s.pc = addrWord nnn ∧ fetch s = .ok (encode (.jp nnn))

/-- The instructions fetched lie at or above 0x200: the software obligation of 20_memory.md R42,
which the hardware does not check. -/
def State.AboveReserved (s : State) : Prop := progBase ≤ s.pc.toNat

end Sys2Proof.Machine
end

