-- ==== Sys2Proof/Certificates/Slice0/Obligations.lean ====
section
/-! DEFINITION. The statements about the machine, for the provers. An instruction's effect is stated
of `exec`, which sees `pc` already advanced by 2 (40_step_cycle.md R86); `StepRunsDecodedInstruction`
carries it to a cycle. A frame is written as an equation: `t = { s with v := t.v }` says that every
field but `v` is as before. -/

namespace Sys2Proof.Claims

open Sys2Proof.Machine

/-! ## Words the statements share -/

/-- The word is the instruction's opcode and decodes to it. -/
def Encodes (op : Word) (i : Instr) : Prop := decodeWord op = some i ∧ encode i = op

/-- The word stands at `pc`, high byte first, and both bytes lie in memory (R46, R81). -/
def FetchedWord (s : State) (op : Word) : Prop :=
  s.pc.toNat ≤ 0xFFE ∧ s.mem.byte s.pc.toNat = op.extractLsb' 8 8 ∧
    s.mem.byte (s.pc.toNat + 1) = op.extractLsb' 0 8

/-- The bytes at `pc` are those of the instruction (the low address holds the high byte, R46). -/
def FetchedInstr (s : State) (i : Instr) : Prop :=
  s.pc.toNat ≤ 0xFFE ∧
    decode [s.mem.byte s.pc.toNat, s.mem.byte (s.pc.toNat + 1)] = .ok (i, [])

/-- The state while an instruction's rule runs: `pc = pc_fetch + 2` (R86). -/
def afterFetch (s : State) : State := { s with pc := s.pc + 2 }

/-- A timer after the tick: 0 stays 0, `n` becomes `n - 1` (the table of R84). -/
def ticked (b : Byte) : Byte := BitVec.ofNat 8 (b.toNat - 1)

/-- The words that are no instruction: the table of R66. -/
def UnknownWord (op : Word) : Prop :=
  let f := (op.extractLsb' 12 4).toNat
  let n := (op.extractLsb' 0 4).toNat
  let kk := (op.extractLsb' 0 8).toNat
  let nnn := (op.extractLsb' 0 12).toNat
  (f = 0x0 ∧ nnn ≠ 0x0E0 ∧ nnn ≠ 0x0EE) ∨ (f = 0x5 ∧ n ≠ 0) ∨
    (f = 0x8 ∧ (8 ≤ n ∧ n ≤ 0xD ∨ n = 0xF)) ∨ (f = 0x9 ∧ n ≠ 0) ∨
    (f = 0xE ∧ kk ≠ 0x9E ∧ kk ≠ 0xA1) ∨
    (f = 0xF ∧ kk ∉ [0x07, 0x0A, 0x15, 0x18, 0x1E, 0x29, 0x33, 0x55, 0x65])

/-- The 26 instructions that raise nothing in their own cycle (the list under the table of R171). -/
def RaisesNothing : Instr → Bool
  | .cls | .jp _ | .seByte _ _ | .sneByte _ _ | .seReg _ _ | .ldByte _ _ | .addByte _ _
  | .ldReg _ _ | .orReg _ _ | .andReg _ _ | .xorReg _ _ | .addReg _ _ | .subReg _ _ | .shr _ _
  | .subnReg _ _ | .shl _ _ | .sneReg _ _ | .ldI _ | .jpV0 _ | .rnd _ _ | .ldVxDT _ | .ldVxK _
  | .ldDT _ | .ldST _ | .addI _ | .ldF _ => true
  | .ret | .call _ | .drw _ _ _ | .skp _ | .sknp _ | .ldB _ | .stRegs _ | .ldRegs _ => false

/-- The registers an instruction may write: its destination `V[X]`, the block `V[0]` to `V[X]` of
FX65, and VF for the six instructions of the table of R12. -/
def MayWriteReg (i : Instr) (r : RegIx) : Prop :=
  match i with
  | .ldByte x _ | .addByte x _ | .ldReg x _ | .orReg x _ | .andReg x _ | .xorReg x _ | .rnd x _
  | .ldVxDT x | .ldVxK x => r = x
  | .addReg x _ | .subReg x _ | .shr x _ | .subnReg x _ | .shl x _ => r = x ∨ r = 15
  | .drw _ _ _ => r = 15
  | .ldRegs x => r ≤ x
  | .cls | .ret | .jp _ | .call _ | .seByte _ _ | .sneByte _ _ | .seReg _ _ | .sneReg _ _ | .ldI _
  | .jpV0 _ | .skp _ | .sknp _ | .ldDT _ | .ldST _ | .addI _ | .ldF _ | .ldB _ | .stRegs _ => False

/-- How many bytes an instruction stores, from address `I` up: 3 for FX33, `X + 1` for FX55, none for
any other (R49). -/
def storedBytes : Instr → Nat
  | .ldB _ => 3
  | .stRegs x => x.val + 1
  | .cls | .ret | .jp _ | .call _ | .seByte _ _ | .sneByte _ _ | .seReg _ _ | .ldByte _ _
  | .addByte _ _ | .ldReg _ _ | .orReg _ _ | .andReg _ _ | .xorReg _ _ | .addReg _ _ | .subReg _ _
  | .shr _ _ | .subnReg _ _ | .shl _ _ | .sneReg _ _ | .ldI _ | .jpV0 _ | .rnd _ _ | .drw _ _ _
  | .skp _ | .sknp _ | .ldVxDT _ | .ldVxK _ | .ldDT _ | .ldST _ | .addI _ | .ldF _ | .ldRegs _ => 0

/-- Whether the condition of a skip instruction holds (R92 to R95, R150, R151); false for an
instruction that is no skip. -/
def SkipHolds (i : Instr) (s : State) : Prop :=
  match i with
  | .seByte x kk => s.reg x = kk
  | .sneByte x kk => s.reg x ≠ kk
  | .seReg x y => s.reg x = s.reg y
  | .sneReg x y => s.reg x ≠ s.reg y
  | .skp x => ∃ h : (s.reg x).toNat < 16, s.keys[(s.reg x).toNat] = true
  | .sknp x => ∃ h : (s.reg x).toNat < 16, s.keys[(s.reg x).toNat] = false
  | .cls | .ret | .jp _ | .call _ | .ldByte _ _ | .addByte _ _ | .ldReg _ _ | .orReg _ _
  | .andReg _ _ | .xorReg _ _ | .addReg _ _ | .subReg _ _ | .shr _ _ | .subnReg _ _ | .shl _ _
  | .ldI _ | .jpV0 _ | .rnd _ _ | .drw _ _ _ | .ldVxDT _ | .ldVxK _ | .ldDT _ | .ldST _ | .addI _
  | .ldF _ | .ldB _ | .stRegs _ | .ldRegs _ => False

/-- `pc` at the end of a successful cycle that ran the instruction: the table of R15. -/
def PcAfter (i : Instr) (s t : State) : Prop :=
  match i with
  | .jp nnn | .call nnn => t.pc.toNat = nnn.toNat
  | .jpV0 nnn => t.pc.toNat = (s.reg 0).toNat + nnn.toNat
  | .ret => ∃ k : Fin 16, s.sp.val = k.val + 1 ∧ t.pc = s.stack.get k
  | .ldVxK _ =>
    ((∃ k : Fin 16, s.keys.get k = true) → t.pc.toNat = s.pc.toNat + 2) ∧
      ((∀ k : Fin 16, s.keys.get k = false) → t.pc = s.pc)
  | .seByte .. | .sneByte .. | .seReg .. | .sneReg .. | .skp _ | .sknp _ =>
    (SkipHolds i s → t.pc.toNat = s.pc.toNat + 4) ∧
      (¬ SkipHolds i s → t.pc.toNat = s.pc.toNat + 2)
  | .cls | .ldByte _ _ | .addByte _ _ | .ldReg _ _ | .orReg _ _ | .andReg _ _ | .xorReg _ _
  | .addReg _ _ | .subReg _ _ | .shr _ _ | .subnReg _ _ | .shl _ _ | .ldI _ | .rnd _ _
  | .drw _ _ _ | .ldVxDT _ | .ldDT _ | .ldST _ | .addI _ | .ldF _ | .ldB _ | .stRegs _
  | .ldRegs _ => t.pc.toNat = s.pc.toNat + 2

/-- The bit that a sprite of `n` rows at address `base`, drawn from column `x0` and row `y0`, holds
for the pixel in row `y`, column `x`, under clipping: sprite row `y - y0`, column `x - x0`, where
column `c` of a sprite byte is bit `7 - c` (R142, R143). -/
def spriteBit (m : Memory) (base n x0 y0 : Nat) (y : Fin 32) (x : Fin 64) : Bool :=
  decide (y0 ≤ y.val ∧ y.val < y0 + n ∧ x0 ≤ x.val ∧ x.val < x0 + 8) &&
    (m.byte (base + (y.val - y0))).getLsbD (7 - (x.val - x0))

/-- The sprite bit for a pixel of an instruction `DXYN` in state `s` (R141, R142). -/
def drwBit (s : State) (x y : RegIx) (n : Nat) (py : Fin 32) (px : Fin 64) : Bool :=
  spriteBit s.mem s.i.toNat n ((s.reg x).toNat % 64) ((s.reg y).toNat % 32) py px

end Sys2Proof.Claims

open Sys2Proof Sys2Proof.Machine Sys2Proof.Claims

/-! ## Encoding -/

/-- Fourteen words of the families 0, 1, 3, 5, 6, 8, A, C, D, E and F, written out from the patterns of
30_encoding.md section 4, decode to the instruction they stand for, and five words with an undefined
selector do not decode. -/
def Obligations.WrittenOutWordsDecode : Prop :=
  decodeTableWord 16 0x00E0 = some .cls ∧ decodeTableWord 16 0x00EE = some .ret ∧
  decodeTableWord 16 0x1ABC = some (.jp 0xABC) ∧ decodeTableWord 16 0x322A = some (.seByte 2 0x2A) ∧
  decodeTableWord 16 0x5120 = some (.seReg 1 2) ∧ decodeTableWord 16 0x610A = some (.ldByte 1 10) ∧
  decodeTableWord 16 0x8014 = some (.addReg 0 1) ∧ decodeTableWord 16 0x823E = some (.shl 2 3) ∧
  decodeTableWord 16 0xA2F0 = some (.ldI 0x2F0) ∧ decodeTableWord 16 0xC30F = some (.rnd 3 0x0F) ∧
  decodeTableWord 16 0xD125 = some (.drw 1 2 5) ∧ decodeTableWord 16 0xE4A1 = some (.sknp 4) ∧
  decodeTableWord 16 0xF355 = some (.stRegs 3) ∧ decodeTableWord 16 0xF10A = some (.ldVxK 1) ∧
  decodeTableWord 16 0x0000 = none ∧ decodeTableWord 16 0x5121 = none ∧
  decodeTableWord 16 0x8128 = none ∧ decodeTableWord 16 0xE49F = none ∧
  decodeTableWord 16 0xF066 = none

/-- Decoding the opcode of a well-formed instruction gives the instruction back, for every
instruction and every operand (30_encoding.md sections 2 and 4). -/
def Obligations.DecodeOfEncodeIsIdentity : Prop :=
  ∀ i : Instr, i.WellFormed = true → decodeWord (encode i) = some i

/-- An opcode that decodes is the opcode of the instruction it decodes to, which is well-formed: no
bit of it is dropped, the ignored `Y` of `8XY6` and `8XYE` included. -/
def Obligations.EncodeOfDecodeIsIdentity : Prop :=
  ∀ (op : Word) (i : Instr), decodeWord op = some i → encode i = op ∧ i.WellFormed = true

/-- The two-level decoder (R64) and the opcode map of 34 masked rows (R65) are one function, and at
most one row matches an opcode. -/
def Obligations.DecoderAgreesWithOpcodeMap : Prop :=
  opcodeTable.length = 34 ∧
  ∀ op : Word, decodeWord op = (opcodeTable.find? (·.selects op)).map (·.build op) ∧
    (opcodeTable.filter (·.selects op)).length ≤ 1

/-- A cycle ends in UnknownInstruction for exactly the opcodes of the table in 30_encoding.md section 5,
and records the opcode and `pc_fetch`; it is never a no-op (60_exceptions.md section 2; some rows of
that table are the spec's decisions D15 to D17). -/
def Obligations.UnknownInstructionRaisedForExactlyTheListedWords : Prop :=
  ∀ (s : State) (op a : Word), step s = .fault (.unknownInstruction op a) ↔
    FetchedWord s op ∧ UnknownWord op ∧ a = s.pc

/-! ## The cycle -/

/-- When the bytes at `pc` decode to an instruction, the cycle is that instruction's execution on the
state with `pc` advanced by 2, then the tick of both timers; a fault of the execution is the result
of the cycle as it is (40_step_cycle.md sections 1, 4 and 5). -/
def Obligations.StepRunsDecodedInstruction : Prop :=
  ∀ (s : State) (i : Instr), FetchedInstr s i →
    (∀ t, exec i (afterFetch s) = .next t →
      step s = .next { t with dt := ticked t.dt, st := ticked t.st }) ∧
    (∀ f, exec i (afterFetch s) = .fault f → step s = .fault f) ∧
    (∀ r, exec i (afterFetch s) = .refused r → step s = .refused r)

/-- R46: the opcode is `mem[pc] * 256 + mem[pc+1]`; the byte at the lower address holds bits 15 to 8
(its high nibble the family, its low nibble `X`), the byte at the higher address bits 7 to 0. -/
def Obligations.FetchIsBigEndian : Prop :=
  ∀ s : State, s.pc.toNat ≤ 0xFFE → ∃ op : Word, fetch s = .ok op ∧
    op.toNat = (s.mem.byte s.pc.toNat).toNat * 256 + (s.mem.byte (s.pc.toNat + 1)).toNat ∧
    op.extractLsb' 8 8 = s.mem.byte s.pc.toNat ∧
    op.extractLsb' 0 8 = s.mem.byte (s.pc.toNat + 1) ∧
    (fieldF op).toNat = (s.mem.byte s.pc.toNat).toNat / 16 ∧
    (fieldX op).val = (s.mem.byte s.pc.toNat).toNat % 16 ∧
    fieldKK op = s.mem.byte (s.pc.toNat + 1)

/-- A fetch from above 0xFFE faults with no opcode in the record and the lowest out-of-range address:
`pc`, or 0x1000 when `pc` is 0xFFF (40_step_cycle.md section 2; the fault is the spec's decision D8). -/
def Obligations.FetchAboveMemoryFaults : Prop :=
  ∀ s : State, 0xFFE < s.pc.toNat →
    step s = .fault (.memoryOutOfRange none s.pc
      (if 0x1000 ≤ s.pc.toNat then s.pc.toNat else s.pc.toNat + 1) .fetch)

/-- Every successful cycle ticks both timers once, on the values after the execute phase: a timer
counts down by 1 and stops at 0, and a value written by FX15 or FX18 in the cycle is ticked in the
same cycle (40_step_cycle.md section 5). -/
def Obligations.TimersTickOncePerSuccessfulCycle : Prop :=
  ∀ (s t : State) (i : Instr), FetchedInstr s i → step s = .next t →
    ((∀ x, i ≠ .ldDT x) → t.dt.toNat = s.dt.toNat - 1) ∧
    ((∀ x, i ≠ .ldST x) → t.st.toNat = s.st.toNat - 1) ∧
    (∀ x, i = .ldDT x → t.dt.toNat = (s.reg x).toNat - 1) ∧
    (∀ x, i = .ldST x → t.st.toNat = (s.reg x).toNat - 1)

/-- Where a successful cycle leaves `pc`, for every instruction: the table of 10_state.md section 5. -/
def Obligations.PcAtEndOfCycle : Prop :=
  ∀ (s t : State) (i : Instr), FetchedInstr s i → step s = .next t → PcAfter i s t

/-- A cycle ends in a next state or in a fault, never in a refusal: every instruction has its meaning
(40_step_cycle.md section 6). -/
def Obligations.StepNeverRefuses : Prop :=
  ∀ (s : State) (r : Refusal), step s ≠ .refused r

/-- A cycle that faulted gives the next cycle the same fault whatever the host writes to the keys in
between and whatever bytes are drawn: the fault is the same in any two states that agree on `pc`,
`mem`, `sp`, `I` and `V` (60_exceptions.md section 4; the unchanged state is the spec's decision D3). -/
def Obligations.FaultsDependOnlyOnPcMemSpIndexAndRegisters : Prop :=
  ∀ (s s' : State) (f : Fault), s'.pc = s.pc → s'.mem = s.mem → s'.sp = s.sp → s'.i = s.i →
    s'.v = s.v → step s = .fault f → step s' = .fault f

/-- The record of a failed cycle: `pc_fetch` is the `pc` the cycle began with; `op` is the word
fetched, absent exactly when the fetch itself faulted; the cause is one of 1 to 5
(60_exceptions.md sections 1 and 2; the record's fields are the spec's decisions D3 and D4). -/
def Obligations.StepFaultRecordHoldsOpcodeAndAddress : Prop :=
  ∀ (s : State) (f : Fault), step s = .fault f →
    f.pcFetch = some s.pc ∧
    (s.pc.toNat ≤ 0xFFE → ∃ op, f.op = some op ∧ FetchedWord s op) ∧
    (0xFFE < s.pc.toNat → f.op = none) ∧ 1 ≤ f.code ∧ f.code ≤ 5

/-- The 26 instructions of the list in 60_exceptions.md section 2 complete in every state. -/
def Obligations.TwentySixInstructionsRaiseNothing : Prop :=
  ∀ (i : Instr) (s : State), RaisesNothing i = true → ∃ t, exec i s = .next t

/-- Which instruction raises which cause in its execute phase, and exactly when (the table of
60_exceptions.md section 2; the codes are the spec's decision D4, the checks its decisions D5 to D7,
D11 and D20). -/
def Obligations.ExecuteFaultsAreExactlyTheTabledOnes : Prop :=
  ∀ (i : Instr) (s : State) (c : Nat), (∃ f, exec i s = .fault f ∧ f.code = c) ↔
    (c = 2 ∧ ∃ nnn, i = .call nnn ∧ s.sp.val = 16) ∨
    (c = 3 ∧ i = .ret ∧ s.sp.val = 0) ∨
    (c = 4 ∧ ∃ x y n, i = .drw x y n ∧ 0 < n ∧ 0xFFF < s.i.toNat + n - 1) ∨
    (c = 4 ∧ ∃ x, i = .ldB x ∧ 0xFFF < s.i.toNat + 2) ∨
    (c = 4 ∧ ∃ x, (i = .stRegs x ∨ i = .ldRegs x) ∧ 0xFFF < s.i.toNat + x.val) ∨
    (c = 5 ∧ ∃ x, (i = .skp x ∨ i = .sknp x) ∧ 15 < (s.reg x).toNat)

/-! ## Invariants and whole-machine rules -/

/-- Every cycle keeps the invariant: memory in canonical form, return addresses at most 0x1000, `pc`
at most 0x10FE, so the 16-bit `pc` never wraps (10_state.md section 5; 43_control.md section 2). -/
def Obligations.StepKeepsInvariant : Prop :=
  ∀ s t : State, s.Inv → step s = .next t → t.Inv

/-- The reset state meets the invariant, on hardware with any font (20_memory.md section 8). -/
def Obligations.ResetMeetsInvariant : Prop :=
  State.reset.Inv ∧ ∀ font : Font, (State.resetWith font).Inv

/-- Whatever commands the host issues, from a state that meets the invariant, every state they lead
to meets it: `reset`, `load`, writes of the key port and cycles in any order, on hardware with any
font. -/
def Obligations.HostCommandsKeepInvariant : Prop :=
  ∀ (font : Font) (cs : List Command) (s t : State),
    s.Inv → performAll font cs s = .next t → t.Inv

/-- The frame of every instruction at once, when it gives a next state: it changes only its
destinations. General registers: those of `MayWriteReg` (VF as a flag for the six instructions that
define one). `I`: ANNN, FX1E, FX29. Stack and `sp`: 2NNN and 00EE, of which 00EE changes no entry.
Timers: FX15, FX18. Framebuffer: 00E0, DXYN. Keys: none. Draws: CXKK. Memory: the bytes stored from
address `I` up by FX33 and FX55; every other byte reads as before, in a canonical memory (10_state.md
sections 2, 3, 4, 6 and 10; 20_memory.md section 2; that no other instruction touches VF or `I` is
the spec's decisions D21 and D22). -/
def Obligations.InstructionsChangeOnlyTheirDestinations : Prop :=
  ∀ (i : Instr) (s t : State), s.mem.wf = true → exec i s = .next t →
    (∀ r, ¬ MayWriteReg i r → t.reg r = s.reg r) ∧
    ((∀ nnn x, i ≠ .ldI nnn ∧ i ≠ .addI x ∧ i ≠ .ldF x) → t.i = s.i) ∧
    ((∀ nnn, i ≠ .call nnn ∧ i ≠ .ret) → t.sp = s.sp) ∧
    ((∀ nnn, i ≠ .call nnn) → t.stack = s.stack) ∧
    ((∀ x, i ≠ .ldDT x) → t.dt = s.dt) ∧ ((∀ x, i ≠ .ldST x) → t.st = s.st) ∧
    ((∀ x y n, i ≠ .cls ∧ i ≠ .drw x y n) → t.fb = s.fb) ∧ t.keys = s.keys ∧
    ((∀ x kk, i ≠ .rnd x kk) → t.draws = s.draws) ∧
    ∀ a, ¬ (s.i.toNat ≤ a ∧ a < s.i.toNat + storedBytes i) → t.mem.byte a = s.mem.byte a

/-! ## Register/byte instructions and skips -/

/-- R90: `6XKK` loads `KK` into `V[X]` (VF like any other register) and changes nothing else. -/
def Obligations.LoadByteSetsRegister : Prop :=
  ∀ (x : RegIx) (kk : Byte) (s : State),
    Encodes (0x6#4 ++ (regBits x ++ kk)) (.ldByte x kk) ∧
    ∃ t, exec (.ldByte x kk) s = .next t ∧ t = { s with v := t.v } ∧
      ∀ r, t.reg r = if r = x then kk else s.reg r

/-- `7XKK` adds `KK` to `V[X]` modulo 256 and changes nothing else: VF is not written as a flag
(41_reg_imm_and_skip.md, 7XKK; the absent flag is the spec's decision D22). -/
def Obligations.AddByteWrapsWithoutFlag : Prop :=
  ∀ (x : RegIx) (kk : Byte) (s : State),
    Encodes (0x7#4 ++ (regBits x ++ kk)) (.addByte x kk) ∧
    ∃ t, exec (.addByte x kk) s = .next t ∧ t = { s with v := t.v } ∧
      (t.reg x).toNat = ((s.reg x).toNat + kk.toNat) % 256 ∧ ∀ r, r ≠ x → t.reg r = s.reg r

/-- `3XKK` adds 2 more to the already-advanced `pc` when `V[X] == KK`, `4XKK` when they differ; neither
changes anything else (41_reg_imm_and_skip.md, 3XKK and 4XKK; which condition belongs to which family
is the spec's decision D17). -/
def Obligations.SkipsOnByteComparison : Prop :=
  ∀ (x : RegIx) (kk : Byte) (s : State),
    Encodes (0x3#4 ++ (regBits x ++ kk)) (.seByte x kk) ∧
    Encodes (0x4#4 ++ (regBits x ++ kk)) (.sneByte x kk) ∧
    exec (.seByte x kk) s = .next (if s.reg x = kk then { s with pc := s.pc + 2 } else s) ∧
    exec (.sneByte x kk) s = .next (if s.reg x = kk then s else { s with pc := s.pc + 2 })

/-- `5XY0` skips when `V[X] == V[Y]`, `9XY0` when they differ (41_reg_imm_and_skip.md, 5XY0 and 9XY0;
that these families compare two registers is the spec's decision D17). -/
def Obligations.SkipsOnRegisterComparison : Prop :=
  ∀ (x y : RegIx) (s : State),
    Encodes (0x5#4 ++ (regBits x ++ (regBits y ++ 0x0#4))) (.seReg x y) ∧
    Encodes (0x9#4 ++ (regBits x ++ (regBits y ++ 0x0#4))) (.sneReg x y) ∧
    exec (.seReg x y) s = .next (if s.reg x = s.reg y then { s with pc := s.pc + 2 } else s) ∧
    exec (.sneReg x y) s = .next (if s.reg x = s.reg y then s else { s with pc := s.pc + 2 })

/-! ## ALU -/

/-- `8XY0` to `8XY3`: move, or, and, exclusive-or of the latched operands into `V[X]`; VF is written
only as the destination (42_alu.md section 2; decisions D14, D17, D22 of the spec). -/
def Obligations.MoveAndLogicWriteOnlyDestination : Prop :=
  ∀ (x y : RegIx) (s : State),
    (Encodes (0x8#4 ++ (regBits x ++ (regBits y ++ 0x0#4))) (.ldReg x y) ∧
      ∃ t, exec (.ldReg x y) s = .next t ∧ t = { s with v := t.v } ∧
        ∀ r, t.reg r = if r = x then s.reg y else s.reg r) ∧
    (Encodes (0x8#4 ++ (regBits x ++ (regBits y ++ 0x1#4))) (.orReg x y) ∧
      ∃ t, exec (.orReg x y) s = .next t ∧ t = { s with v := t.v } ∧
        ∀ r, t.reg r = if r = x then s.reg x ||| s.reg y else s.reg r) ∧
    (Encodes (0x8#4 ++ (regBits x ++ (regBits y ++ 0x2#4))) (.andReg x y) ∧
      ∃ t, exec (.andReg x y) s = .next t ∧ t = { s with v := t.v } ∧
        ∀ r, t.reg r = if r = x then s.reg x &&& s.reg y else s.reg r) ∧
    (Encodes (0x8#4 ++ (regBits x ++ (regBits y ++ 0x3#4))) (.xorReg x y) ∧
      ∃ t, exec (.xorReg x y) s = .next t ∧ t = { s with v := t.v } ∧
        ∀ r, t.reg r = if r = x then s.reg x ^^^ s.reg y else s.reg r)

/-- R105: `8XY4` writes the carry of the untruncated sum to VF, then the sum modulo 256 to `V[X]`, so
with `X = F` VF ends as the sum; both come from the operands before any write. -/
def Obligations.AddRegistersSetsCarryThenSum : Prop :=
  ∀ (x y : RegIx) (s : State),
    Encodes (0x8#4 ++ (regBits x ++ (regBits y ++ 0x4#4))) (.addReg x y) ∧
    ∃ t, exec (.addReg x y) s = .next t ∧ t = { s with v := t.v } ∧
      (t.reg x).toNat = ((s.reg x).toNat + (s.reg y).toNat) % 256 ∧
      (x ≠ 15 → t.reg 15 = if 255 < (s.reg x).toNat + (s.reg y).toNat then 1 else 0) ∧
      ∀ r, r ≠ x → r ≠ 15 → t.reg r = s.reg r

/-- R106: `8XY5` writes 1 to VF exactly when `V[X] > V[Y]`, strictly, then the difference modulo 256
to `V[X]`, so with `X = F` VF ends as the difference. -/
def Obligations.SubtractSetsStrictGreaterFlag : Prop :=
  ∀ (x y : RegIx) (s : State),
    Encodes (0x8#4 ++ (regBits x ++ (regBits y ++ 0x5#4))) (.subReg x y) ∧
    ∃ t, exec (.subReg x y) s = .next t ∧ t = { s with v := t.v } ∧
      (t.reg x).toNat = (if (s.reg y).toNat ≤ (s.reg x).toNat then (s.reg x).toNat - (s.reg y).toNat
        else (s.reg x).toNat + 256 - (s.reg y).toNat) ∧
      (x ≠ 15 → t.reg 15 = if (s.reg y).toNat < (s.reg x).toNat then 1 else 0) ∧
      ∀ r, r ≠ x → r ≠ 15 → t.reg r = s.reg r

/-- `8XY7` writes 1 to VF exactly when `V[Y] > V[X]`, strictly, then `V[Y] - V[X]` modulo 256 to
`V[X]` (42_alu.md, 8XY7; the selector is the spec's decision D17). -/
def Obligations.ReverseSubtractSetsStrictGreaterFlag : Prop :=
  ∀ (x y : RegIx) (s : State),
    Encodes (0x8#4 ++ (regBits x ++ (regBits y ++ 0x7#4))) (.subnReg x y) ∧
    ∃ t, exec (.subnReg x y) s = .next t ∧ t = { s with v := t.v } ∧
      (t.reg x).toNat = (if (s.reg x).toNat ≤ (s.reg y).toNat then (s.reg y).toNat - (s.reg x).toNat
        else (s.reg y).toNat + 256 - (s.reg x).toNat) ∧
      (x ≠ 15 → t.reg 15 = if (s.reg x).toNat < (s.reg y).toNat then 1 else 0) ∧
      ∀ r, r ≠ x → r ≠ 15 → t.reg r = s.reg r

/-- `8XY6` and `8XYE` shift `V[X]` by 1, write the bit shifted out to VF first and the result to
`V[X]` second; `V[Y]` is ignored (42_alu.md, 8XY6 and 8XYE; that `V[X]` is the operand is the spec's
decision D13, log entry 3). -/
def Obligations.ShiftsMoveOneBitIntoFlag : Prop :=
  ∀ (x y : RegIx) (s : State),
    (Encodes (0x8#4 ++ (regBits x ++ (regBits y ++ 0x6#4))) (.shr x y) ∧
      ∃ t, exec (.shr x y) s = .next t ∧ t = { s with v := t.v } ∧
        (t.reg x).toNat = (s.reg x).toNat / 2 ∧
        (x ≠ 15 → (t.reg 15).toNat = (s.reg x).toNat % 2) ∧
        ∀ r, r ≠ x → r ≠ 15 → t.reg r = s.reg r) ∧
    (Encodes (0x8#4 ++ (regBits x ++ (regBits y ++ 0xE#4))) (.shl x y) ∧
      ∃ t, exec (.shl x y) s = .next t ∧ t = { s with v := t.v } ∧
        (t.reg x).toNat = 2 * (s.reg x).toNat % 256 ∧
        (x ≠ 15 → (t.reg 15).toNat = (s.reg x).toNat / 128) ∧
        ∀ r, r ≠ x → r ≠ 15 → t.reg r = s.reg r)

/-! ## Control transfer -/

/-- R120: `1NNN` puts `NNN`, zero-extended, into `pc` and changes nothing else; any target is
accepted. -/
def Obligations.JumpSetsPc : Prop :=
  ∀ (nnn : Addr) (s : State),
    Encodes (0x1#4 ++ nnn) (.jp nnn) ∧
    ∃ t, exec (.jp nnn) s = .next t ∧ t = { s with pc := t.pc } ∧ t.pc.toNat = nnn.toNat

/-- `2NNN` pushes the already-advanced `pc`, and with all 16 entries in use faults (43_control.md,
2NNN; the fault is the spec's decision D5). -/
def Obligations.CallPushesReturnAddress : Prop :=
  ∀ (nnn : Addr) (s : State),
    Encodes (0x2#4 ++ nnn) (.call nnn) ∧
    (s.sp.val < 16 → ∃ t, exec (.call nnn) s = .next t ∧
      t = { s with pc := t.pc, sp := t.sp, stack := t.stack } ∧
      t.pc.toNat = nnn.toNat ∧ t.sp.val = s.sp.val + 1 ∧
      ∀ k : Fin 16, t.stack.get k = if k.val = s.sp.val then s.pc else s.stack.get k) ∧
    (s.sp.val = 16 →
      exec (.call nnn) s = .fault (.stackOverflow (0x2#4 ++ nnn) (s.pc - 2) 16))

/-- `00EE` pops the return address into `pc` and leaves the entry in place; with no call outstanding
it faults (43_control.md, 00EE; the fault and the kept entry are the spec's decisions D6 and D35). -/
def Obligations.ReturnPopsAddress : Prop :=
  ∀ s : State,
    Encodes 0x00EE#16 .ret ∧
    (∀ k : Fin 16, s.sp.val = k.val + 1 → ∃ t, exec .ret s = .next t ∧
      t = { s with pc := s.stack.get k, sp := t.sp } ∧ t.sp.val = k.val) ∧
    (s.sp.val = 0 → exec .ret s = .fault (.stackUnderflow 0x00EE#16 (s.pc - 2) 0))

/-- `BNNN` jumps to `V[0] + NNN`, which is not reduced modulo 4096; VF is not written (43_control.md,
BNNN; the absent flag is the spec's decision D22). -/
def Obligations.IndexedJumpAddsV0 : Prop :=
  ∀ (nnn : Addr) (s : State),
    Encodes (0xB#4 ++ nnn) (.jpV0 nnn) ∧
    ∃ t, exec (.jpV0 nnn) s = .next t ∧ t = { s with pc := t.pc } ∧
      t.pc.toNat = (s.reg 0).toNat + nnn.toNat

/-- A call followed, wherever the subroutine ends, by a return leaves `pc` at the instruction after
the call and `sp` as before (the source's property in 43_control.md, 00EE). -/
def Obligations.ReturnUndoesCall : Prop :=
  ∀ (nnn : Addr) (s t : State) (p : Word), exec (.call nnn) s = .next t →
    ∃ u, exec .ret { t with pc := p } = .next u ∧ u = { s with stack := t.stack }

/-- A cycle at a self-jump leaves the state fixed apart from the timers counting down, and `pc` still
at the self-jump: the idle convention (43_control.md, 1NNN; 70_reset_and_hazards.md section 4, whose
end-of-run predicate is the spec's decision D28). -/
def Obligations.SelfJumpOnlyTicks : Prop :=
  ∀ s : State, s.SelfJump →
    step s = .next { s with dt := ticked s.dt, st := ticked s.st } ∧
      State.SelfJump { s with dt := ticked s.dt, st := ticked s.st }

/-! ## Index register, BCD converter, block transfer -/

/-- R130: `ANNN` puts `NNN`, zero-extended, into `I` and changes nothing else. -/
def Obligations.LoadIndexSetsI : Prop :=
  ∀ (nnn : Addr) (s : State),
    Encodes (0xA#4 ++ nnn) (.ldI nnn) ∧
    ∃ t, exec (.ldI nnn) s = .next t ∧ t = { s with i := t.i } ∧ t.i.toNat = nnn.toNat

/-- `FX1E` adds `V[X]` to `I` modulo 65536 and writes no flag (44_index_memory.md, FX1E; that VF is
not written is the spec's decision D22). -/
def Obligations.AddIndexWrapsWithoutFlag : Prop :=
  ∀ (x : RegIx) (s : State),
    Encodes (0xF#4 ++ (regBits x ++ 0x1E#8)) (.addI x) ∧
    ∃ t, exec (.addI x) s = .next t ∧ t = { s with i := t.i } ∧
      t.i.toNat = (s.i.toNat + (s.reg x).toNat) % 65536

/-- R132: `FX29` puts the font address of the low nibble of `V[X]` into `I` and changes nothing else;
the result is at most 0x09B. -/
def Obligations.FontAddressOfLowNibble : Prop :=
  ∀ (x : RegIx) (s : State),
    Encodes (0xF#4 ++ (regBits x ++ 0x29#8)) (.ldF x) ∧
    ∃ t, exec (.ldF x) s = .next t ∧ t = { s with i := t.i } ∧
      t.i.toNat = 0x050 + 5 * (s.reg x &&& 0x0F#8).toNat ∧ t.i.toNat ≤ 0x09B

/-- `FX33` writes the hundreds, tens and ones of `V[X]` to `I`, `I + 1`, `I + 2` and no other byte;
when one of the three lies above 0xFFF it faults and reports the lowest offending address
(44_index_memory.md, FX33; the fault and its address are the spec's decisions D7 and D36). -/
def Obligations.BcdStoresThreeDigits : Prop :=
  ∀ (x : RegIx) (s : State),
    Encodes (0xF#4 ++ (regBits x ++ 0x33#8)) (.ldB x) ∧
    (s.mem.wf = true → s.i.toNat + 2 ≤ 0xFFF → ∃ t, exec (.ldB x) s = .next t ∧
      t = { s with mem := t.mem } ∧
      (t.mem.byte s.i.toNat).toNat = (s.reg x).toNat / 100 ∧
      (t.mem.byte (s.i.toNat + 1)).toNat = (s.reg x).toNat / 10 % 10 ∧
      (t.mem.byte (s.i.toNat + 2)).toNat = (s.reg x).toNat % 10 ∧
      ∀ a, ¬ (s.i.toNat ≤ a ∧ a < s.i.toNat + 3) → t.mem.byte a = s.mem.byte a) ∧
    (0xFFF < s.i.toNat + 2 → exec (.ldB x) s = .fault (.memoryOutOfRange
      (some (0xF#4 ++ (regBits x ++ 0x33#8))) (s.pc - 2) (max s.i.toNat 0x1000) .write))

/-- `FX55` stores `V[0]` to `V[X]` from address `I` up and nothing else; `I` and the registers stay;
out of range it faults whole (44_index_memory.md, FX55; decisions D7 and D21 of the spec). -/
def Obligations.BlockStoreCopiesRegisters : Prop :=
  ∀ (x : RegIx) (s : State),
    Encodes (0xF#4 ++ (regBits x ++ 0x55#8)) (.stRegs x) ∧
    (s.mem.wf = true → s.i.toNat + x.val ≤ 0xFFF → ∃ t, exec (.stRegs x) s = .next t ∧
      t = { s with mem := t.mem } ∧
      (∀ k : RegIx, k ≤ x → t.mem.byte (s.i.toNat + k.val) = s.reg k) ∧
      ∀ a, ¬ (s.i.toNat ≤ a ∧ a < s.i.toNat + (x.val + 1)) → t.mem.byte a = s.mem.byte a) ∧
    (0xFFF < s.i.toNat + x.val → exec (.stRegs x) s = .fault (.memoryOutOfRange
      (some (0xF#4 ++ (regBits x ++ 0x55#8))) (s.pc - 2) (max s.i.toNat 0x1000) .write))

/-- `FX65` loads `V[0]` to `V[X]` from address `I` up and changes nothing else, VF loaded like any
other register; out of range it faults whole (44_index_memory.md, FX65; decisions D7 and D21). -/
def Obligations.BlockLoadCopiesMemory : Prop :=
  ∀ (x : RegIx) (s : State),
    Encodes (0xF#4 ++ (regBits x ++ 0x65#8)) (.ldRegs x) ∧
    (s.i.toNat + x.val ≤ 0xFFF → ∃ t, exec (.ldRegs x) s = .next t ∧ t = { s with v := t.v } ∧
      ∀ r, t.reg r = if r ≤ x then s.mem.byte (s.i.toNat + r.val) else s.reg r) ∧
    (0xFFF < s.i.toNat + x.val → exec (.ldRegs x) s = .fault (.memoryOutOfRange
      (some (0xF#4 ++ (regBits x ++ 0x65#8))) (s.pc - 2) (max s.i.toNat 0x1000) .read))

/-- The round trip of 44_index_memory.md, FX65: a block stored by FX55 and loaded back by FX65 from
the same `I`, over any register file, restores `V[0]` to `V[X]` exactly. -/
def Obligations.BlockTransferRoundTrip : Prop :=
  ∀ (x : RegIx) (s t : State) (v : Vector Byte 16), s.mem.wf = true →
    exec (.stRegs x) s = .next t →
    ∃ u, exec (.ldRegs x) { t with v := v } = .next u ∧ u = { t with v := u.v } ∧
      ∀ r, u.reg r = if r ≤ x then s.reg r else v.get r

/-- A store is seen by the very next fetch, with nothing in between: when FX55 stores two or more
registers where `pc` points, the next opcode is `V[0]` high, `V[1]` low (20_memory.md section 6). -/
def Obligations.StoredInstructionIsFetchedAtOnce : Prop :=
  ∀ (x : RegIx) (s t : State), s.mem.wf = true → 1 ≤ x.val → s.i = s.pc →
    exec (.stRegs x) s = .next t → fetch t = .ok (s.reg 0 ++ s.reg 1)

/-! ## Display -/

/-- R140: `00E0` turns every pixel off and changes nothing else. -/
def Obligations.ClearTurnsEveryPixelOff : Prop :=
  ∀ s : State,
    Encodes 0x00E0#16 .cls ∧
    ∃ t, exec .cls s = .next t ∧ t = { s with fb := t.fb } ∧
      ∀ (y : Fin 32) (x : Fin 64), t.fb.pixel y x = false

/-- `DXYN` with its sprite inside memory: each pixel is XORed with the sprite's bit for it, with the
origin wrapped and pixels past the edges clipped, and VF gets 1 exactly when a pixel that was on got
a set bit; nothing else changes (45_display.md R141 to R143; clipping is the spec's decision D19, log
entry 2). -/
def Obligations.DrawXorsSpriteAndReportsCollision : Prop :=
  ∀ (x y : RegIx) (n : Nat) (s : State), n ≤ 15 → (n = 0 ∨ s.i.toNat + n - 1 ≤ 0xFFF) →
    Encodes (0xD#4 ++ (regBits x ++ (regBits y ++ BitVec.ofNat 4 n))) (.drw x y n) ∧
    ∃ t, exec (.drw x y n) s = .next t ∧ t = { s with fb := t.fb, v := t.v } ∧
      (∀ py px, t.fb.pixel py px = (s.fb.pixel py px ^^ drwBit s x y n py px)) ∧
      ((∃ py px, s.fb.pixel py px = true ∧ drwBit s x y n py px = true) → t.reg 15 = 1) ∧
      ((∀ py px, s.fb.pixel py px = true → drwBit s x y n py px = false) → t.reg 15 = 0) ∧
      ∀ r, r ≠ 15 → t.reg r = s.reg r

/-- `DXYN` with a sprite byte above 0xFFF, in a clipped row or not, faults and reports the lowest
such address (45_display.md R141; the check of every row is the spec's decision D20). -/
def Obligations.DrawOutsideMemoryFaults : Prop :=
  ∀ (x y : RegIx) (n : Nat) (s : State), 0 < n → 0xFFF < s.i.toNat + n - 1 →
    exec (.drw x y n) s = .fault (.memoryOutOfRange
      (some (0xD#4 ++ (regBits x ++ (regBits y ++ BitVec.ofNat 4 n)))) (s.pc - 2)
      (max s.i.toNat 0x1000) .read)

/-- Drawing the same sprite twice at the same coordinates restores the framebuffer; the second draw
reports a collision when the first turned some pixel on (the source's property in 45_display.md R141;
`X` and `Y` are not VF, which the first draw writes). -/
def Obligations.DrawingTwiceRestoresFramebuffer : Prop :=
  ∀ (x y : RegIx) (n : Nat) (s t u : State), n ≤ 15 → x ≠ 15 → y ≠ 15 →
    exec (.drw x y n) s = .next t → exec (.drw x y n) t = .next u →
    u.fb = s.fb ∧
    ((∃ py px, s.fb.pixel py px = false ∧ t.fb.pixel py px = true) → u.reg 15 = 1)

/-- The other value of the edge parameter (93_implementation_defined.md U2): under `wrap` a pixel is
XORed with the bit of the sprite row and column that wrap onto it, and a collision counts wrapped
pixels too. The model's instruction takes `clip`; this is about the shared drawing operation. -/
def Obligations.WrapPolicyDrawsEveryPixel : Prop :=
  ∀ (fb : Framebuffer) (x0 y0 : Nat) (sprite : List Byte), x0 < 64 → y0 < 32 → sprite.length ≤ 15 →
    let bit := fun (py : Fin 32) (px : Fin 64) =>
      decide ((px.val + 64 - x0) % 64 < 8) &&
        (sprite.getD ((py.val + 32 - y0) % 32) 0x00#8).getLsbD (7 - (px.val + 64 - x0) % 64)
    (∀ py px, (drawSprite .wrap fb x0 y0 sprite).1.pixel py px = (fb.pixel py px ^^ bit py px)) ∧
    ((drawSprite .wrap fb x0 y0 sprite).2 = true ↔
      ∃ py px, fb.pixel py px = true ∧ bit py px = true)

/-! ## Keys, timers, random -/

/-- `EX9E` and `EXA1` skip on the key numbered `V[X]` being pressed, or not; a number above 15 is a
fault (46_keys_timers_random.md, EX9E and EXA1; the fault is the spec's decision D11). -/
def Obligations.KeySkipsTestTheNumberedKey : Prop :=
  ∀ (x : RegIx) (s : State),
    Encodes (0xE#4 ++ (regBits x ++ 0x9E#8)) (.skp x) ∧
    Encodes (0xE#4 ++ (regBits x ++ 0xA1#8)) (.sknp x) ∧
    (∀ k : Fin 16, (s.reg x).toNat = k.val →
      exec (.skp x) s = .next (if s.keys.get k = true then { s with pc := s.pc + 2 } else s) ∧
      exec (.sknp x) s = .next (if s.keys.get k = true then s else { s with pc := s.pc + 2 })) ∧
    (15 < (s.reg x).toNat →
      exec (.skp x) s = .fault (.keyIndexOutOfRange (0xE#4 ++ (regBits x ++ 0x9E#8)) (s.pc - 2)
        (s.reg x)) ∧
      exec (.sknp x) s = .fault (.keyIndexOutOfRange (0xE#4 ++ (regBits x ++ 0xA1#8)) (s.pc - 2)
        (s.reg x)))

/-- R152: `FX0A` puts the least pressed key into `V[X]`; with no key pressed it moves `pc` back by 2,
so that a whole cycle leaves everything as it was but for the timers, and the instruction runs
again. -/
def Obligations.KeyWaitTakesLowestKeyOrRepeats : Prop :=
  ∀ (x : RegIx) (s : State),
    Encodes (0xF#4 ++ (regBits x ++ 0x0A#8)) (.ldVxK x) ∧
    (∀ k : Fin 16, s.keys.get k = true → (∀ j : Fin 16, j < k → s.keys.get j = false) →
      ∃ t, exec (.ldVxK x) s = .next t ∧ t = { s with v := t.v } ∧ (t.reg x).toNat = k.val ∧
        ∀ r, r ≠ x → t.reg r = s.reg r) ∧
    ((∀ k : Fin 16, s.keys.get k = false) →
      exec (.ldVxK x) s = .next { s with pc := s.pc - 2 } ∧
      (FetchedWord s (0xF#4 ++ (regBits x ++ 0x0A#8)) →
        step s = .next { s with dt := ticked s.dt, st := ticked s.st }))

/-- R153: `FX07` puts `DT`, as it is before the tick of the cycle, into `V[X]`; the tick then
decrements `DT`. -/
def Obligations.ReadDelayTimerBeforeTick : Prop :=
  ∀ (x : RegIx) (s : State),
    Encodes (0xF#4 ++ (regBits x ++ 0x07#8)) (.ldVxDT x) ∧
    (∃ t, exec (.ldVxDT x) s = .next t ∧ t = { s with v := t.v } ∧
      ∀ r, t.reg r = if r = x then s.dt else s.reg r) ∧
    (FetchedWord s (0xF#4 ++ (regBits x ++ 0x07#8)) →
      ∃ t, step s = .next t ∧ t.reg x = s.dt ∧ t.dt = ticked s.dt)

/-- R154 and R155: `FX15` and `FX18` write `V[X]` to their timer and change nothing else; the tick of
the same cycle then decrements the new value, and the other timer's own. -/
def Obligations.TimerWriteIsTickedInTheSameCycle : Prop :=
  ∀ (x : RegIx) (s : State),
    Encodes (0xF#4 ++ (regBits x ++ 0x15#8)) (.ldDT x) ∧
    Encodes (0xF#4 ++ (regBits x ++ 0x18#8)) (.ldST x) ∧
    exec (.ldDT x) s = .next { s with dt := s.reg x } ∧
    exec (.ldST x) s = .next { s with st := s.reg x } ∧
    (FetchedWord s (0xF#4 ++ (regBits x ++ 0x15#8)) → step s =
      .next { s with pc := s.pc + 2, dt := ticked (s.reg x), st := ticked s.st }) ∧
    (FetchedWord s (0xF#4 ++ (regBits x ++ 0x18#8)) → step s =
      .next { s with pc := s.pc + 2, dt := ticked s.dt, st := ticked (s.reg x) })

/-- `CXKK` puts the next free byte, masked by `KK`, into `V[X]` and uses that byte up: nothing is
claimed of the byte's value (46_keys_timers_random.md, CXKK; the free draw is the spec's decision
D23, its form log entry 4). -/
def Obligations.RandomByteIsMasked : Prop :=
  ∀ (x : RegIx) (kk : Byte) (s : State),
    Encodes (0xC#4 ++ (regBits x ++ kk)) (.rnd x kk) ∧
    ∃ t, exec (.rnd x kk) s = .next t ∧ t = { s with v := t.v, draws := s.draws + 1 } ∧
      ∀ r, t.reg r = if r = x then Config.freeByte s.draws &&& kk else s.reg r

/-! ## Reset, load, memory -/

/-- R24: the value of every state element after reset, for every font `FONT[0..79]`; `State.reset` is
that state for the font the model takes. -/
def Obligations.ResetStateIsAsTabled : Prop :=
  (∀ font : Font,
    (∀ r, (State.resetWith font).reg r = 0) ∧ (State.resetWith font).i = 0 ∧
    (State.resetWith font).pc = 0x0200#16 ∧
    (∀ k : Fin 16, (State.resetWith font).stack.get k = 0) ∧ (State.resetWith font).sp = 0 ∧
    (State.resetWith font).dt = 0 ∧ (State.resetWith font).st = 0 ∧
    (∀ k : Fin 16, (State.resetWith font).keys.get k = false) ∧
    (∀ (y : Fin 32) (x : Fin 64), (State.resetWith font).fb.pixel y x = false) ∧
    ∀ a, a < 4096 → (State.resetWith font).mem.byte a =
      if 0x050 ≤ a ∧ a ≤ 0x09F then font.toList.getD (a - 0x050) 0 else 0) ∧
  State.resetWith params.font = State.reset

/-- For every font, `FX29` in the reset state's memory puts into `I` the address of the glyph of the low
nibble of `V[X]`: row `k` of glyph `d` is read at `I + k` and is `FONT[5 * d + k]` (20_memory.md
section 8; the font as a field to quantify over is the spec's decision D18). In the font the model
takes, which is from general knowledge (log entry 1), the low four bits of every byte are 0. -/
def Obligations.GlyphsStandAtTheirFontAddresses : Prop :=
  (∀ (font : Font) (x : RegIx) (s : State) (k : Fin 5), s.mem = (State.resetWith font).mem →
    ∃ t, exec (.ldF x) s = .next t ∧
      t.mem.byte (t.i.toNat + k.val) =
        font.toList.getD (5 * ((s.reg x).toNat % 16) + k.val) 0) ∧
  ∀ j : Fin 80, (params.font.get j).toNat % 16 = 0

/-- The command `reset`, on hardware with any font, gives every element its reset value from any state,
cannot fail, and twice in a row is as once; the program is erased and the font installed, since memory
is that of the reset state (70_reset_and_hazards.md section 1). The model's own draw counter, which
stands for the inside of `rng`, goes on: `t.draws = s.draws` (the model's choice, log entry 4). -/
def Obligations.ResetCommandReinitializesEverything : Prop :=
  ∀ (font : Font) (s : State), ∃ t, perform font .reset s = .next t ∧
    t = { State.resetWith font with draws := t.draws } ∧ t.draws = s.draws ∧
    perform font .reset t = .next t

/-- `load` of at most 3584 bytes copies them to 0x200 up and changes nothing else, the memory past
the image included (70_reset_and_hazards.md section 2; details are the spec's decision D31). -/
def Obligations.LoadCopiesImage : Prop :=
  ∀ (bytes : List Byte) (s : State), s.mem.wf = true → bytes.length ≤ 3584 →
    ∃ t, load bytes s = .next t ∧ t = { s with mem := t.mem } ∧
      (∀ k (h : k < bytes.length), t.mem.byte (0x200 + k) = bytes[k]) ∧
      ∀ a, ¬ (0x200 ≤ a ∧ a < 0x200 + bytes.length) → t.mem.byte a = s.mem.byte a

/-- R177: an image of more than 3584 bytes is rejected whole, with a failure result and so with no
byte of memory changed; no cycle ever raises this cause. -/
def Obligations.OversizeImageIsRejected : Prop :=
  (∀ (bytes : List Byte) (s : State), 3584 < bytes.length →
    load bytes s = .fault (.romTooLarge bytes.length)) ∧
  ∀ (s : State) (n : Nat), step s ≠ .fault (.romTooLarge n)

/-- The canonical form of memory (the model's own, log entry 5): two memories in it that read the
same at every address are equal data. -/
def Obligations.CanonicalMemoriesReadingAlikeAreEqual : Prop :=
  ∀ m m' : Memory, m.wf = true → m'.wf = true → (∀ a, a < 4096 → m.byte a = m'.byte a) → m = m'
end

