-- ==== Sys2Proof/Laws/Decode.lean ====
section
/-! SUPPORT. The fields of an encoded word are what was encoded, and a word is its fields. -/

namespace Sys2Proof

/-! ## Bits of the three formats -/

theorem getLsbD_fnnn (f : BitVec 4) (nnn : Addr) (k : Nat) : (encodeFNNN f nnn).getLsbD k =
    if k < 12 then nnn.getLsbD k else f.getLsbD (k - 12) := BitVec.getLsbD_append

theorem getLsbD_fxkk (f : BitVec 4) (x : RegIx) (kk : Byte) (k : Nat) :
    (encodeFXKK f x kk).getLsbD k = if k < 12 then (if k < 8 then kk.getLsbD k
      else (regBits x).getLsbD (k - 8)) else f.getLsbD (k - 12) :=
  BitVec.getLsbD_append.trans (by rw [BitVec.getLsbD_append])

theorem getLsbD_fxyn (f : BitVec 4) (x y : RegIx) (n : BitVec 4) (k : Nat) :
    (encodeFXYN f x y n).getLsbD k = if k < 12 then (if k < 8 then (if k < 4 then n.getLsbD k
      else (regBits y).getLsbD (k - 4)) else (regBits x).getLsbD (k - 8)) else f.getLsbD (k - 12) :=
  BitVec.getLsbD_append.trans (by rw [BitVec.getLsbD_append, BitVec.getLsbD_append])

/-- Two words with the same sixteen bits are equal. -/
theorem word_ext {v w : Word} (h : ∀ k, k < 16 → v.getLsbD k = w.getLsbD k) : v = w :=
  BitVec.eq_of_getLsbD_eq fun k hk => h k hk

@[simp] theorem regBits_toFin (x : RegIx) : (regBits x).toFin = x := by
  revert x; decide

@[simp] theorem regBits_fieldX (op : Word) : regBits (fieldX op) = op.extractLsb' 8 4 :=
  BitVec.ofNat_toNat ..|>.trans (BitVec.setWidth_eq _)

@[simp] theorem regBits_fieldY (op : Word) : regBits (fieldY op) = op.extractLsb' 4 4 :=
  BitVec.ofNat_toNat ..|>.trans (BitVec.setWidth_eq _)

/-! ## Fields of an encoded word -/

@[simp] theorem fieldF_fnnn (f : BitVec 4) (nnn : Addr) : fieldF (encodeFNNN f nnn) = f := by
  apply BitVec.eq_of_getLsbD_eq
  intro k hk
  simp only [fieldF, BitVec.getLsbD_extractLsb', getLsbD_fnnn]
  simp [hk]

@[simp] theorem fieldNNN_fnnn (f : BitVec 4) (nnn : Addr) :
    fieldNNN (encodeFNNN f nnn) = nnn := by
  apply BitVec.eq_of_getLsbD_eq
  intro k hk
  simp only [fieldNNN, BitVec.getLsbD_extractLsb', getLsbD_fnnn]
  simp [hk]

@[simp] theorem fieldF_fxkk (f : BitVec 4) (x : RegIx) (kk : Byte) :
    fieldF (encodeFXKK f x kk) = f := fieldF_fnnn f _

@[simp] theorem fieldX_fxkk (f : BitVec 4) (x : RegIx) (kk : Byte) :
    fieldX (encodeFXKK f x kk) = x := by
  have h : (encodeFXKK f x kk).extractLsb' 8 4 = regBits x := by
    apply BitVec.eq_of_getLsbD_eq
    intro k hk
    simp only [BitVec.getLsbD_extractLsb', getLsbD_fxkk]
    simp [hk, show 8 + k < 12 by omega]
  rw [fieldX, h, regBits_toFin]

@[simp] theorem fieldKK_fxkk (f : BitVec 4) (x : RegIx) (kk : Byte) :
    fieldKK (encodeFXKK f x kk) = kk := by
  apply BitVec.eq_of_getLsbD_eq
  intro k hk
  simp only [fieldKK, BitVec.getLsbD_extractLsb', getLsbD_fxkk]
  simp [hk, show k < 12 by omega]

@[simp] theorem fieldF_fxyn (f : BitVec 4) (x y : RegIx) (n : BitVec 4) :
    fieldF (encodeFXYN f x y n) = f := fieldF_fnnn f _

@[simp] theorem fieldX_fxyn (f : BitVec 4) (x y : RegIx) (n : BitVec 4) :
    fieldX (encodeFXYN f x y n) = x := fieldX_fxkk f x _

@[simp] theorem fieldY_fxyn (f : BitVec 4) (x y : RegIx) (n : BitVec 4) :
    fieldY (encodeFXYN f x y n) = y := by
  have h : (encodeFXYN f x y n).extractLsb' 4 4 = regBits y := by
    apply BitVec.eq_of_getLsbD_eq
    intro k hk
    simp only [BitVec.getLsbD_extractLsb', getLsbD_fxyn]
    simp [hk, show 4 + k < 12 by omega, show 4 + k < 8 by omega]
  rw [fieldY, h, regBits_toFin]

@[simp] theorem fieldN_fxyn (f : BitVec 4) (x y : RegIx) (n : BitVec 4) :
    fieldN (encodeFXYN f x y n) = n := by
  apply BitVec.eq_of_getLsbD_eq
  intro k hk
  simp only [fieldN, BitVec.getLsbD_extractLsb', getLsbD_fxyn]
  simp [hk, show k < 12 by omega, show k < 8 by omega]

/-! ## A word from its fields -/

theorem encodeFNNN_fields (op : Word) : encodeFNNN (fieldF op) (fieldNNN op) = op := by
  refine word_ext fun k hk => ?_
  simp only [getLsbD_fnnn, fieldF, fieldNNN, BitVec.getLsbD_extractLsb']
  split
  · simp [*]
  · simp [show k - 12 < 4 by omega, show 12 + (k - 12) = k by omega]

theorem encodeFXKK_fields (op : Word) :
    encodeFXKK (fieldF op) (fieldX op) (fieldKK op) = op := by
  refine word_ext fun k hk => ?_
  simp only [getLsbD_fxkk, fieldF, fieldKK, regBits_fieldX, BitVec.getLsbD_extractLsb']
  split
  · split
    · simp [*]
    · simp [show k - 8 < 4 by omega, show 8 + (k - 8) = k by omega]
  · simp [show k - 12 < 4 by omega, show 12 + (k - 12) = k by omega]

theorem encodeFXYN_fields (op : Word) :
    encodeFXYN (fieldF op) (fieldX op) (fieldY op) (fieldN op) = op := by
  refine word_ext fun k hk => ?_
  simp only [getLsbD_fxyn, fieldF, fieldN, regBits_fieldX, regBits_fieldY,
    BitVec.getLsbD_extractLsb']
  split
  · split
    · split
      · simp [*]
      · simp [show k - 4 < 4 by omega, show 4 + (k - 4) = k by omega]
    · simp [show k - 8 < 4 by omega, show 8 + (k - 8) = k by omega]
  · simp [show k - 12 < 4 by omega, show 12 + (k - 12) = k by omega]

/-! ## Bytes of a word -/

/-- The two bytes of an opcode give it back (R46). -/
theorem wordOfBytes_hi_lo (op : Word) : wordOfBytes (hiByte op) (loByte op) = op := by
  refine word_ext fun k hk => ?_
  have h : (wordOfBytes (hiByte op) (loByte op)).getLsbD k =
      if k < 8 then (loByte op).getLsbD k else (hiByte op).getLsbD (k - 8) := BitVec.getLsbD_append
  rw [h]
  simp only [hiByte, loByte, BitVec.getLsbD_extractLsb']
  split
  · simp [*]
  · simp [show k - 8 < 8 by omega, show 8 + (k - 8) = k by omega]

/-- The high byte of a composed word (R46). -/
@[simp] theorem hiByte_wordOfBytes (hi lo : Byte) : hiByte (wordOfBytes hi lo) = hi := by
  apply BitVec.eq_of_getLsbD_eq
  intro k hk
  have h : ∀ k, (wordOfBytes hi lo).getLsbD k =
      if k < 8 then lo.getLsbD k else hi.getLsbD (k - 8) := fun _ => BitVec.getLsbD_append
  simp only [hiByte, BitVec.getLsbD_extractLsb', h]
  simp [hk]

/-- The low byte of a composed word (R46). -/
@[simp] theorem loByte_wordOfBytes (hi lo : Byte) : loByte (wordOfBytes hi lo) = lo := by
  apply BitVec.eq_of_getLsbD_eq
  intro k hk
  have h : ∀ k, (wordOfBytes hi lo).getLsbD k =
      if k < 8 then lo.getLsbD k else hi.getLsbD (k - 8) := fun _ => BitVec.getLsbD_append
  simp only [loByte, BitVec.getLsbD_extractLsb', h]
  simp [hk]

/-- Decoding two bytes is decoding their word. -/
theorem decode_pair {hi lo : Byte} {i : Instr} :
    decode [hi, lo] = .ok (i, []) ↔ decodeWord (wordOfBytes hi lo) = some i := by
  unfold decode
  cases h : decodeWord (wordOfBytes hi lo) <;> simp [h]

end Sys2Proof
end

