-- ==== Sys2Proof/Laws/Display.lean ====
section
/-! SUPPORT. The framebuffer operations: one pixel, and a whole sprite. -/

namespace Sys2Proof.Machine

theorem Framebuffer.pixel_eq (fb : Framebuffer) (y : Fin 32) (x : Fin 64) :
    fb.pixel y x = fb[y.val][x.val] := rfl

/-- Every pixel of the cleared framebuffer is off (R140). -/
@[simp] theorem Framebuffer.pixel_off (y : Fin 32) (x : Fin 64) :
    Framebuffer.off.pixel y x = false := by
  simp [Framebuffer.off, Framebuffer.pixel_eq]

/-- Framebuffers with the same pixels are the same. -/
theorem Framebuffer.ext_pixel {fb fb' : Framebuffer}
    (h : ∀ y x, fb.pixel y x = fb'.pixel y x) : fb = fb' := by
  apply Vector.ext
  intro y hy
  apply Vector.ext
  intro x hx
  exact h ⟨y, hy⟩ ⟨x, hx⟩

/-- A toggle changes one pixel. -/
theorem Framebuffer.pixel_toggle (fb : Framebuffer) (y y' : Fin 32) (x x' : Fin 64) :
    (fb.toggle y x).pixel y' x' =
      (fb.pixel y' x' ^^ decide ((y', x') = (y, x))) := by
  simp only [Framebuffer.pixel_eq, Framebuffer.toggle, Fin.getElem_fin]
  rw [Vector.getElem_set]
  by_cases hy : y' = y
  · subst hy
    simp only [if_pos, Vector.getElem_set]
    by_cases hx : x' = x
    · subst hx; simp
    · have : x.val ≠ x'.val := fun e => hx (Fin.ext e.symm)
      simp [this, hx]
  · have : y.val ≠ y'.val := fun e => hy (Fin.ext e.symm)
    simp [this, hy]

/-- Drawing distinct pixels: each is XORed with 1, no other changes, and a collision is noted exactly
when one of them was on or one was noted before (R141). -/
theorem foldl_drawPixel (ps : List (Fin 32 × Fin 64)) :
    ∀ (acc : Framebuffer × Bool), ps.Nodup →
      (∀ y x, (ps.foldl drawPixel acc).1.pixel y x = (acc.1.pixel y x ^^ decide ((y, x) ∈ ps))) ∧
      (ps.foldl drawPixel acc).2 = (acc.2 || ps.any fun p => acc.1.pixel p.1 p.2) := by
  induction ps with
  | nil => intro acc _; simp
  | cons p ps ih =>
    intro acc hnd
    obtain ⟨hp, hps⟩ := List.nodup_cons.mp hnd
    obtain ⟨h1, h2⟩ := ih (drawPixel acc p) hps
    constructor
    · intro y x
      rw [List.foldl_cons, h1]
      simp only [drawPixel, Framebuffer.pixel_toggle, List.mem_cons, Prod.mk.eta]
      by_cases e : (y, x) = p
      · simp [e, hp]
      · simp [e]
    · rw [List.foldl_cons, h2]
      have hany : (ps.any fun q => (drawPixel acc p).1.pixel q.1 q.2) =
          ps.any fun q => acc.1.pixel q.1 q.2 := by
        rw [Bool.eq_iff_iff, List.any_eq_true, List.any_eq_true]
        refine exists_congr fun q => and_congr_right fun hq => ?_
        have hne : q ≠ p := fun e => hp (e ▸ hq)
        simp [drawPixel, Framebuffer.pixel_toggle, hne]
      rw [hany]
      simp [drawPixel, Bool.or_assoc]

/-- A pixel is addressed by a set bit of sprite row `r`, by the bit of one of its 8 columns. -/
theorem mem_rowTargets {edge : DrwEdge} {x0 y0 r : Nat} {b : Byte} {p : Fin 32 × Fin 64} :
    p ∈ rowTargets edge x0 y0 r b ↔
      ∃ c, c < 8 ∧ b.getLsbD (7 - c) = true ∧ spriteTarget edge x0 y0 r c = some p := by
  simp only [rowTargets, List.mem_filterMap, List.mem_range]
  refine exists_congr fun c => and_congr_right fun _ => ?_
  split <;> simp_all

/-- A pixel is addressed by a set bit of a sprite whose first row is row `r`. -/
theorem mem_spriteTargets {edge : DrwEdge} {x0 y0 : Nat} (bs : List Byte) :
    ∀ {r : Nat} {p : Fin 32 × Fin 64}, p ∈ spriteTargets edge x0 y0 r bs ↔
      ∃ k c, ∃ h : k < bs.length, c < 8 ∧ (bs[k]'h).getLsbD (7 - c) = true ∧
        spriteTarget edge x0 y0 (r + k) c = some p := by
  induction bs with
  | nil => intro r p; simp [spriteTargets]
  | cons b bs ih =>
    intro r p
    simp only [spriteTargets, List.mem_append, mem_rowTargets, ih]
    constructor
    · rintro (⟨c, hc, hb, ht⟩ | ⟨k, c, hk, hc, hb, ht⟩)
      · exact ⟨0, c, by simp, hc, by simpa using hb, by simpa using ht⟩
      · refine ⟨k + 1, c, by simpa using hk, hc, by simpa using hb, ?_⟩
        rw [← ht]; congr 1; omega
    · rintro ⟨k, c, hk, hc, hb, ht⟩
      cases k with
      | zero => exact .inl ⟨c, hc, by simpa using hb, by simpa using ht⟩
      | succ k =>
        refine .inr ⟨k, c, by simpa using hk, hc, by simpa using hb, ?_⟩
        rw [← ht]; congr 1; omega

/-- Different sprite positions address different pixels, under either edge policy (R141). -/
theorem spriteTarget_inj {edge : DrwEdge} {x0 y0 r r' c c' : Nat} {p : Fin 32 × Fin 64}
    (hr : r < 32) (hr' : r' < 32) (hc : c < 8) (hc' : c' < 8)
    (h : spriteTarget edge x0 y0 r c = some p) (h' : spriteTarget edge x0 y0 r' c' = some p) :
    r = r' ∧ c = c' := by
  cases edge with
  | clip =>
    simp only [spriteTarget] at h h'
    split at h
    · split at h'
      · simp only [Option.some.injEq] at h h'
        subst h
        simp only [Prod.mk.injEq, Fin.mk.injEq] at h'
        omega
      · cases h'
    · cases h
  | wrap =>
    simp only [spriteTarget, Option.some.injEq] at h h'
    subst h
    simp only [Prod.mk.injEq, Fin.mk.injEq] at h'
    omega

/-- The pixels of one sprite row are distinct. -/
theorem nodup_rowTargets {edge : DrwEdge} {x0 y0 r : Nat} (b : Byte) (hr : r < 32) :
    (rowTargets edge x0 y0 r b).Nodup := by
  unfold rowTargets
  rw [List.Nodup, List.pairwise_filterMap]
  refine (List.nodup_range (n := 8)).imp_of_mem fun {c c'} hc hc' hne p hp q hq e => ?_
  subst e
  simp only [List.mem_range] at hc hc'
  split at hp
  · split at hq
    · exact hne (spriteTarget_inj hr hr hc hc' hp hq).2
    · cases hq
  · cases hp

/-- The pixels of a sprite of at most 32 rows are distinct. -/
theorem nodup_spriteTargets {edge : DrwEdge} {x0 y0 : Nat} (bs : List Byte) :
    ∀ {r : Nat}, r + bs.length ≤ 32 → (spriteTargets edge x0 y0 r bs).Nodup := by
  induction bs with
  | nil => intro r _; exact List.nodup_nil
  | cons b bs ih =>
    intro r hr
    simp only [List.length_cons] at hr
    refine List.nodup_append.mpr ⟨nodup_rowTargets b (by omega), ih (by omega), ?_⟩
    intro p hp q hq e
    subst e
    obtain ⟨c, hc, _, ht⟩ := mem_rowTargets.mp hp
    obtain ⟨k, c', hk, hc', _, ht'⟩ := (mem_spriteTargets bs).mp hq
    have := (spriteTarget_inj (by omega) (by omega) hc hc' ht ht').1
    omega

/-- Everything a draw of at most 32 rows does, under either edge policy: the addressed pixels are
XORed with 1, and a collision is noted exactly when one of them was on (R141). -/
theorem drawSprite_spec (edge : DrwEdge) (fb : Framebuffer) (x0 y0 : Nat) (bs : List Byte)
    (h : bs.length ≤ 32) :
    (∀ y x, (drawSprite edge fb x0 y0 bs).1.pixel y x =
      (fb.pixel y x ^^ decide ((y, x) ∈ spriteTargets edge x0 y0 0 bs))) ∧
    (drawSprite edge fb x0 y0 bs).2 =
      (spriteTargets edge x0 y0 0 bs).any fun p => fb.pixel p.1 p.2 := by
  obtain ⟨h1, h2⟩ := foldl_drawPixel (spriteTargets edge x0 y0 0 bs) (fb, false)
    (nodup_spriteTargets bs (by omega))
  exact ⟨h1, by simpa [drawSprite] using h2⟩

end Sys2Proof.Machine
end

