-- ==== Sys2Proof/Laws/Memory.lean ====
section
/-! SUPPORT. Memory: reads after writes, and every operation keeps the canonical form. -/

namespace Sys2Proof.Machine

/-! ## The canonical form -/

theorem Memory.wfFrom_mono {lo lo' : Nat} (h : lo' ≤ lo) :
    ∀ {m : Memory}, Memory.wfFrom lo m = true → Memory.wfFrom lo' m = true
  | [], _ => rfl
  | (a, b) :: m, hm => by
    simp only [Memory.wfFrom, Bool.and_eq_true, decide_eq_true_eq] at hm ⊢
    exact ⟨⟨⟨by omega, hm.1.1.2⟩, hm.1.2⟩, hm.2⟩

/-- Below its first cell a canonical memory reads as at reset. -/
theorem Memory.byte_below {lo a : Nat} (ha : a < lo) :
    ∀ {m : Memory}, Memory.wfFrom lo m = true → m.byte a = initialByte a
  | [], _ => rfl
  | (k, b) :: m, hm => by
    simp only [Memory.wfFrom, Bool.and_eq_true, decide_eq_true_eq] at hm
    have hk : a ≠ k := by omega
    simp only [Memory.byte, if_neg hk]
    exact Memory.byte_below (lo := k + 1) (by omega) hm.2

theorem Memory.wfFrom_consCell {lo a : Nat} {b : Byte} {m : Memory} (hlo : lo ≤ a)
    (ha : a < memSize) (hm : Memory.wfFrom (a + 1) m = true) :
    Memory.wfFrom lo (Memory.consCell a b m) = true := by
  unfold Memory.consCell
  split
  · exact Memory.wfFrom_mono (by omega) hm
  · next h =>
    simp only [Memory.wfFrom, Bool.and_eq_true, decide_eq_true_eq]
    exact ⟨⟨⟨hlo, ha⟩, h⟩, hm⟩

theorem Memory.byte_consCell {a c : Nat} {b : Byte} {m : Memory}
    (hm : Memory.wfFrom (a + 1) m = true) :
    (Memory.consCell a b m).byte c = if c = a then b else m.byte c := by
  unfold Memory.consCell
  split
  · next h =>
    by_cases hc : c = a
    · subst hc
      rw [Memory.byte_below (by omega) hm, h, if_pos rfl]
    · rw [if_neg hc]
  · simp only [Memory.byte]

theorem Memory.wfFrom_insert {a : Nat} (b : Byte) (ha : a < memSize) :
    ∀ {lo : Nat} {m : Memory}, lo ≤ a → Memory.wfFrom lo m = true →
      Memory.wfFrom lo (m.insert a b) = true
  | lo, [], hlo, _ => Memory.wfFrom_consCell hlo ha rfl
  | lo, (k, c) :: m, hlo, hm => by
    simp only [Memory.wfFrom, Bool.and_eq_true, decide_eq_true_eq] at hm
    obtain ⟨⟨⟨h1, h2⟩, h3⟩, h4⟩ := hm
    unfold Memory.insert
    split
    · refine Memory.wfFrom_consCell hlo ha ?_
      simp only [Memory.wfFrom, Bool.and_eq_true, decide_eq_true_eq]
      exact ⟨⟨⟨by omega, h2⟩, h3⟩, h4⟩
    · split
      · next h => subst h; exact Memory.wfFrom_consCell hlo ha h4
      · simp only [Memory.wfFrom, Bool.and_eq_true, decide_eq_true_eq]
        exact ⟨⟨⟨h1, h2⟩, h3⟩, Memory.wfFrom_insert b ha (by omega) h4⟩

theorem Memory.byte_insert {a : Nat} (b : Byte) (c : Nat) :
    ∀ {lo : Nat} {m : Memory}, Memory.wfFrom lo m = true →
      (m.insert a b).byte c = if c = a then b else m.byte c
  | _, [], _ => Memory.byte_consCell (m := []) rfl
  | lo, (k, d) :: m, hm => by
    simp only [Memory.wfFrom, Bool.and_eq_true, decide_eq_true_eq] at hm
    obtain ⟨⟨⟨h1, h2⟩, h3⟩, h4⟩ := hm
    unfold Memory.insert
    split
    · next h =>
      refine Memory.byte_consCell ?_
      simp only [Memory.wfFrom, Bool.and_eq_true, decide_eq_true_eq]
      exact ⟨⟨⟨by omega, h2⟩, h3⟩, h4⟩
    · split
      · next h h' =>
        subst h'
        rw [Memory.byte_consCell h4]
        by_cases hc : c = a
        · simp [hc]
        · simp [hc, Memory.byte]
      · next h h' =>
        simp only [Memory.byte]
        by_cases hk : c = k
        · have : c ≠ a := by omega
          simp [hk]
          intro e; omega
        · simp only [if_neg hk]
          exact Memory.byte_insert b c h4

/-! ## One byte -/

/-- A store keeps the canonical form. -/
theorem Memory.wf_set {m : Memory} (a : Nat) (b : Byte) (hm : m.wf = true) :
    (m.set a b).wf = true := by
  unfold Memory.set
  split
  · next h => exact Memory.wfFrom_insert b h (Nat.zero_le _) hm
  · exact hm

/-- Reading any byte after a store. -/
theorem Memory.byte_set {m : Memory} {a : Nat} (b : Byte) (c : Nat) (hm : m.wf = true)
    (ha : a < memSize) : (m.set a b).byte c = if c = a then b else m.byte c := by
  unfold Memory.set
  rw [if_pos ha]
  exact Memory.byte_insert b c hm

/-! ## Several bytes -/

/-- A block store keeps the canonical form. -/
theorem Memory.wf_setBytes (bs : List Byte) :
    ∀ {m : Memory} (base : Nat), m.wf = true → (m.setBytes base bs).wf = true := by
  induction bs with
  | nil => intro m base hm; exact hm
  | cons b bs ih => intro m base hm; exact ih _ (Memory.wf_set base b hm)

/-- Reading any byte after a block store that lies inside memory. -/
theorem Memory.byte_setBytes (bs : List Byte) (c : Nat) :
    ∀ {m : Memory} {base : Nat}, m.wf = true → base + bs.length ≤ memSize →
      (m.setBytes base bs).byte c =
        if h : base ≤ c ∧ c - base < bs.length then bs[c - base]'h.2 else m.byte c := by
  induction bs with
  | nil => intro m base hm hb; simp [Memory.setBytes]
  | cons b bs ih =>
    intro m base hm hb
    simp only [List.length_cons] at hb
    unfold Memory.setBytes
    rw [ih (Memory.wf_set base b hm) (by omega)]
    by_cases hc : c = base
    · subst hc
      have : ¬ (c + 1 ≤ c ∧ c - (c + 1) < bs.length) := by omega
      simp only [this, dite_false]
      rw [Memory.byte_set b c hm (by omega)]
      simp
    · by_cases h1 : base + 1 ≤ c ∧ c - (base + 1) < bs.length
      · have h2 : base ≤ c ∧ c - base < (b :: bs).length := by simp; omega
        simp only [h1, h2, and_self, dite_true]
        have : c - base = (c - (base + 1)) + 1 := by omega
        simp [this]
      · have h2 : ¬ (base ≤ c ∧ c - base < (b :: bs).length) := by simp; omega
        simp only [h1, h2, dite_false]
        rw [Memory.byte_set b c hm (by omega), if_neg hc]

@[simp] theorem Memory.length_bytes (m : Memory) (n : Nat) :
    ∀ base, (m.bytes base n).length = n := by
  induction n with
  | zero => intro base; rfl
  | succ n ih => intro base; simp [Memory.bytes, ih]

/-- Byte `k` of a block read. -/
theorem Memory.getElem_bytes (m : Memory) (n : Nat) :
    ∀ (base k : Nat) (h : k < (m.bytes base n).length), (m.bytes base n)[k] = m.byte (base + k) := by
  induction n with
  | zero => intro base k h; simp [Memory.bytes] at h
  | succ n ih =>
    intro base k h
    cases k with
    | zero => simp [Memory.bytes]
    | succ k =>
      simp only [Memory.bytes, List.getElem_cons_succ]
      rw [ih]
      congr 1
      omega

/-! ## Every memory of the machine -/

/-- Memory right after a reset is canonical, whatever the font. -/
theorem Memory.wf_withFont (font : Font) : (Memory.withFont font).wf = true :=
  Memory.wf_setBytes _ _ rfl

/-- Every address after a reset: the font at 0x050 to 0x09F, zero elsewhere (R24, R57). -/
theorem Memory.byte_withFont (font : Font) (a : Nat) :
    (Memory.withFont font).byte a = resetByte font a := by
  unfold Memory.withFont
  rw [Memory.byte_setBytes _ _ rfl (by simp)]
  by_cases h : 80 ≤ a ∧ a - 80 < 80
  · have h' : 80 ≤ a ∧ a < 160 := by omega
    simp [resetByte, h, h']
  · have h' : ¬ (80 ≤ a ∧ a < 160) := by omega
    simp [resetByte, h, h', Memory.byte, initialByte]

/-- Installing the font of `params` lists nothing. -/
@[simp] theorem Memory.withFont_params : Memory.withFont params.font = [] := by decide

/-- The reset state is that of the hardware with the font of `params`. -/
@[simp] theorem State.resetWith_params : State.resetWith params.font = State.reset := by
  rw [State.resetWith, Memory.withFont_params]
  rfl

/-- Memory right after reset is canonical. -/
theorem State.reset_mem_wf : State.reset.mem.wf = true := rfl

/-- An opcode stored by the host's fetch aid keeps the canonical form. -/
theorem Memory.wf_setWord {m : Memory} (a : Nat) (op : Word) (hm : m.wf = true) :
    (m.setWord a op).wf = true := Memory.wf_setBytes _ _ hm

/-- A `load` keeps the canonical form. -/
theorem load_mem_wf {bytes : List Byte} {s t : State} (hm : s.mem.wf = true)
    (h : load bytes s = .next t) : t.mem.wf = true := by
  unfold load at h
  split at h
  · cases h; exact Memory.wf_setBytes _ _ hm
  · cases h

end Sys2Proof.Machine
end

