-- ==== Sys2Proof/Laws/State.lean ====
section
/-! SUPPORT. Small lemmas of the state: what each named update does to each field. -/

namespace Sys2Proof.Machine

variable (s : State) (x y : RegIx) (b : Byte)

/-! ## Registers -/

@[simp] theorem State.setReg_mem : (s.setReg x b).mem = s.mem := rfl
@[simp] theorem State.setReg_i : (s.setReg x b).i = s.i := rfl
@[simp] theorem State.setReg_pc : (s.setReg x b).pc = s.pc := rfl
@[simp] theorem State.setReg_stack : (s.setReg x b).stack = s.stack := rfl
@[simp] theorem State.setReg_sp : (s.setReg x b).sp = s.sp := rfl
@[simp] theorem State.setReg_dt : (s.setReg x b).dt = s.dt := rfl
@[simp] theorem State.setReg_st : (s.setReg x b).st = s.st := rfl
@[simp] theorem State.setReg_keys : (s.setReg x b).keys = s.keys := rfl
@[simp] theorem State.setReg_fb : (s.setReg x b).fb = s.fb := rfl
@[simp] theorem State.setReg_draws : (s.setReg x b).draws = s.draws := rfl

/-- A register write changes the registers and nothing else. -/
theorem State.setReg_frame : s.setReg x b = { s with v := (s.setReg x b).v } := rfl

/-- Reading a register after a register write. -/
theorem State.reg_setReg : (s.setReg x b).reg y = if y = x then b else s.reg y := by
  simp only [State.reg, State.setReg, Vector.get_eq_getElem]
  rw [Vector.getElem_set]
  simp only [Fin.ext_iff, eq_comm]

@[simp] theorem State.reg_setReg_self : (s.setReg x b).reg x = b := by simp [State.reg_setReg]

theorem State.reg_setReg_ne (h : y ≠ x) : (s.setReg x b).reg y = s.reg y := by
  simp [State.reg_setReg, h]

/-- The registers read from the register field alone. -/
theorem State.reg_eq_of_v {s t : State} (h : s.v = t.v) (r : RegIx) : s.reg r = t.reg r := by
  simp [State.reg, h]

/-- Two register files that read the same are the same. -/
theorem State.v_eq_of_reg {s t : State} (h : ∀ r, s.reg r = t.reg r) : s.v = t.v := by
  apply Vector.ext
  intro k hk
  simpa [State.reg, Vector.get_eq_getElem] using h ⟨k, hk⟩

/-! ## The block write of FX65 -/

/-- A block write changes the registers and nothing else. -/
theorem State.setRegs_frame (bs : List Byte) :
    ∀ (s : State) (k : Nat), s.setRegs k bs = { s with v := (s.setRegs k bs).v } := by
  induction bs with
  | nil => intro s k; rfl
  | cons c bs ih =>
    intro s k
    unfold State.setRegs
    split
    · rw [ih]; rfl
    · rfl

/-- Reading a register after a block write from register `k` up. -/
theorem State.reg_setRegs (bs : List Byte) : ∀ (s : State) (k : Nat), (s.setRegs k bs).reg y =
    if h : k ≤ y.val ∧ y.val - k < bs.length then bs[y.val - k]'h.2 else s.reg y := by
  induction bs with
  | nil => intro s k; simp [State.setRegs]
  | cons c bs ih =>
    intro s k
    unfold State.setRegs
    split
    · rename_i hk
      rw [ih]
      by_cases hy : y.val = k
      · have : y = ⟨k, hk⟩ := Fin.ext hy
        subst this
        simp
      · have hne : y ≠ ⟨k, hk⟩ := fun h => hy (congrArg Fin.val h)
        by_cases h1 : k + 1 ≤ y.val ∧ y.val - (k + 1) < bs.length
        · have h2 : k ≤ y.val ∧ y.val - k < (c :: bs).length := by simp; omega
          simp only [h1, h2, and_self, dite_true]
          have : y.val - k = (y.val - (k + 1)) + 1 := by omega
          simp [this]
        · have h2 : ¬ (k ≤ y.val ∧ y.val - k < (c :: bs).length) := by simp; omega
          simp only [h1, h2, dite_false, State.reg_setReg_ne _ _ _ _ hne]
    · rename_i hk
      have h2 : ¬ (k ≤ y.val ∧ y.val - k < (c :: bs).length) := by omega
      simp only [h2, dite_false]

/-! ## Skip, advance, tick -/

@[simp] theorem State.skip_pc : s.skip.pc = s.pc + 2 := rfl
@[simp] theorem State.advance_pc : s.advance.pc = s.pc + 2 := rfl
@[simp] theorem State.advance_mem : s.advance.mem = s.mem := rfl
@[simp] theorem State.advance_v : s.advance.v = s.v := rfl
@[simp] theorem State.advance_i : s.advance.i = s.i := rfl
@[simp] theorem State.advance_stack : s.advance.stack = s.stack := rfl
@[simp] theorem State.advance_sp : s.advance.sp = s.sp := rfl
@[simp] theorem State.advance_dt : s.advance.dt = s.dt := rfl
@[simp] theorem State.advance_st : s.advance.st = s.st := rfl
@[simp] theorem State.advance_keys : s.advance.keys = s.keys := rfl
@[simp] theorem State.advance_fb : s.advance.fb = s.fb := rfl
@[simp] theorem State.advance_draws : s.advance.draws = s.draws := rfl
@[simp] theorem State.advance_reg : s.advance.reg x = s.reg x := rfl
@[simp] theorem State.tick_dt : s.tick.dt = tickTimer s.dt := rfl
@[simp] theorem State.tick_st : s.tick.st = tickTimer s.st := rfl
@[simp] theorem State.tick_mem : s.tick.mem = s.mem := rfl
@[simp] theorem State.tick_v : s.tick.v = s.v := rfl
@[simp] theorem State.tick_i : s.tick.i = s.i := rfl
@[simp] theorem State.tick_pc : s.tick.pc = s.pc := rfl
@[simp] theorem State.tick_stack : s.tick.stack = s.stack := rfl
@[simp] theorem State.tick_sp : s.tick.sp = s.sp := rfl
@[simp] theorem State.tick_keys : s.tick.keys = s.keys := rfl
@[simp] theorem State.tick_fb : s.tick.fb = s.fb := rfl
@[simp] theorem State.tick_draws : s.tick.draws = s.draws := rfl
@[simp] theorem State.tick_reg : s.tick.reg x = s.reg x := rfl

/-- A timer's tick as natural-number subtraction, which stops at 0. -/
theorem tickTimer_toNat (t : Byte) : (tickTimer t).toNat = t.toNat - 1 := by
  unfold tickTimer
  split
  · next h => subst h; rfl
  · next h =>
    have h0 : t.toNat ≠ 0 := fun e => h (BitVec.eq_of_toNat_eq (by simpa using e))
    have := t.isLt
    rw [BitVec.toNat_sub]
    simp only [BitVec.ofNat_eq_ofNat, BitVec.toNat_ofNat]
    omega

/-! ## The state after a reset, for any font -/

@[simp] theorem State.resetWith_mem (font : Font) :
    (State.resetWith font).mem = Memory.withFont font := rfl
@[simp] theorem State.resetWith_v (font : Font) :
    (State.resetWith font).v = State.reset.v := rfl
@[simp] theorem State.resetWith_i (font : Font) :
    (State.resetWith font).i = State.reset.i := rfl
@[simp] theorem State.resetWith_pc (font : Font) :
    (State.resetWith font).pc = State.reset.pc := rfl
@[simp] theorem State.resetWith_stack (font : Font) :
    (State.resetWith font).stack = State.reset.stack := rfl
@[simp] theorem State.resetWith_sp (font : Font) :
    (State.resetWith font).sp = State.reset.sp := rfl
@[simp] theorem State.resetWith_dt (font : Font) :
    (State.resetWith font).dt = State.reset.dt := rfl
@[simp] theorem State.resetWith_st (font : Font) :
    (State.resetWith font).st = State.reset.st := rfl
@[simp] theorem State.resetWith_keys (font : Font) :
    (State.resetWith font).keys = State.reset.keys := rfl
@[simp] theorem State.resetWith_fb (font : Font) :
    (State.resetWith font).fb = State.reset.fb := rfl
@[simp] theorem State.resetWith_draws (font : Font) :
    (State.resetWith font).draws = State.reset.draws := rfl

/-! ## The call stack -/

/-- Everything a push can do. -/
theorem State.push_cases (s : State) (a : Word) :
    (s.sp.val = 16 ∧ s.push a = none) ∨
    (s.sp.val < 16 ∧ ∃ t, s.push a = some t ∧ t = { s with stack := t.stack, sp := t.sp } ∧
      t.sp.val = s.sp.val + 1 ∧
      ∀ k : Fin 16, t.stack.get k = if k.val = s.sp.val then a else s.stack.get k) := by
  unfold State.push
  split
  · next h =>
    refine .inr ⟨h, _, rfl, rfl, rfl, ?_⟩
    intro k
    simp only [Vector.get_eq_getElem]
    rw [Vector.getElem_set]
    simp only [eq_comm]
  · next h => exact .inl ⟨by have := s.sp.isLt; omega, rfl⟩

/-- Everything a pop can do. -/
theorem State.pop_cases (s : State) :
    (s.sp.val = 0 ∧ s.pop = none) ∨
    (∃ k : Fin 16, s.sp.val = k.val + 1 ∧ ∃ t, s.pop = some (s.stack.get k, t) ∧
      t = { s with sp := t.sp } ∧ t.sp.val = k.val) := by
  unfold State.pop
  split
  · next h =>
    have := s.sp.isLt
    exact .inr ⟨⟨s.sp.val - 1, by omega⟩, by simp; omega, _, rfl, rfl, rfl⟩
  · next h => exact .inl ⟨by omega, rfl⟩

end Sys2Proof.Machine
end

