-- ==== Sys2Proof/Laws/Ops.lean ====
section
/-! SUPPORT. One lemma per shared operation: everything it can do. -/

namespace Sys2Proof.Machine

/-- The range check of R56: no address of the range is above 0xFFF, or the lowest that is. -/
theorem lowestBad_cases (base len : Nat) :
    (len = 0 ∨ base + len ≤ 4096) ∧ lowestBad base len = none ∨
    (0 < len ∧ 4096 < base + len) ∧ lowestBad base len = some (max base 4096) := by
  unfold lowestBad
  simp only [memSize_eq]
  split
  · next h => exact .inl ⟨h, rfl⟩
  · next h => exact .inr ⟨by omega, rfl⟩

theorem lowestBad_eq_none {base len : Nat} :
    lowestBad base len = none ↔ len = 0 ∨ base + len ≤ 4096 := by
  rcases lowestBad_cases base len with ⟨h, e⟩ | ⟨h, e⟩ <;> simp [e] <;> omega

theorem lowestBad_eq_some {base len a : Nat} :
    lowestBad base len = some a ↔ 0 < len ∧ 4096 < base + len ∧ a = max base 4096 := by
  rcases lowestBad_cases base len with ⟨h, e⟩ | ⟨h, e⟩ <;> simp [e] <;> omega

/-- Fetch gives the opcode at `pc`, or faults because `pc` is above 0xFFE (R81). -/
theorem fetch_cases (s : State) :
    (s.pc.toNat ≤ 0xFFE ∧ fetch s = .ok (s.mem.word s.pc.toNat)) ∨
    (0xFFE < s.pc.toNat ∧
      fetch s = .error (.memoryOutOfRange none s.pc (max s.pc.toNat 4096) .fetch)) := by
  unfold fetch
  rcases lowestBad_cases s.pc.toNat 2 with ⟨h, e⟩ | ⟨h, e⟩
  · exact .inl ⟨by omega, by rw [e]⟩
  · exact .inr ⟨by omega, by rw [e]⟩

/-- A key test answers for the numbers 0 to 15 and for no other (R150, R151). -/
theorem keyTest_cases (k : Byte) (keys : Keys) :
    (∃ h : k.toNat < 16, keyTest k keys = some (keys.get ⟨k.toNat, h⟩)) ∨
    (15 < k.toNat ∧ keyTest k keys = none) := by
  unfold keyTest
  split
  · next h => exact .inl ⟨h, rfl⟩
  · next h => exact .inr ⟨by omega, rfl⟩

/-- No key is pressed, or the least pressed one is found (R152). -/
theorem lowestPressed_cases (keys : Keys) :
    ((∀ k : Fin 16, keys.get k = false) ∧ lowestPressed keys = none) ∨
    (∃ k : Fin 16, keys.get k = true ∧ (∀ j : Fin 16, j < k → keys.get j = false) ∧
      lowestPressed keys = some k) := by
  unfold lowestPressed
  cases h : (List.finRange 16).find? fun k => keys[k] with
  | none =>
    refine .inl ⟨fun k => ?_, rfl⟩
    have := List.find?_eq_none.mp h k (List.mem_finRange k)
    simpa [Vector.get_eq_getElem] using this
  | some k =>
    refine .inr ⟨k, ?_, ?_, rfl⟩
    · have := List.find?_some h
      simpa [Vector.get_eq_getElem] using this
    · intro j hj
      obtain ⟨_, as, bs, hsplit, hno⟩ := List.find?_eq_some_iff_append.mp h
      have hj' : j ∈ as := by
        have hlen : as.length = k.val := by
          have h1 : as.length < (List.finRange 16).length := by rw [hsplit]; simp
          have h2 : (List.finRange 16)[as.length]'h1 = k := by simp [hsplit]
          have h3 : (List.finRange 16)[as.length]'h1 = ⟨as.length, by simpa using h1⟩ := by simp
          rw [h3] at h2
          exact congrArg Fin.val h2
        have h4 : (List.finRange 16)[j.val]'(by simp) = j := by simp
        have h5 : j.val < as.length := by rw [hlen]; exact hj
        have h6 : as[j.val]'h5 = j := by
          have : (as ++ k :: bs)[j.val]'(by simp; omega) = j := by
            have := h4
            simp only [hsplit] at this
            exact this
          rwa [List.getElem_append_left h5] at this
        exact h6 ▸ List.getElem_mem h5
      have := hno j hj'
      simpa [Vector.get_eq_getElem] using this

/-- The block of FX55 has `X + 1` bytes (R134). -/
@[simp] theorem length_regBlock (x : RegIx) (s : State) : (regBlock x s).length = x.val + 1 := by
  have h : ∀ x : RegIx, regBlock x s = (List.finRange (x.val + 1)).map fun k =>
      s.reg ⟨k.val, by omega⟩ := by
    intro x
    fin_cases x <;> rfl
  simp [h]

/-- Byte `k` of the block of FX55 is `V[k]` (R134). -/
theorem getElem_regBlock (x : RegIx) (s : State) (k : Nat) (h : k < (regBlock x s).length) :
    (regBlock x s)[k] = s.reg ⟨k, by rw [length_regBlock] at h; omega⟩ := by
  have e : ∀ x : RegIx, regBlock x s = (List.finRange (x.val + 1)).map fun k =>
      s.reg ⟨k.val, by omega⟩ := by
    intro x
    fin_cases x <;> rfl
  simp [e]

end Sys2Proof.Machine
end

