-- ==== Sys2Proof/Laws/PerInstr.lean ====
section
/-! SUPPORT. Facts about every instruction as syntax, one lemma per constructor. -/

namespace Sys2Proof.Laws.RowOfEncoding

/-- The place of an instruction's row in the opcode map of 30_encoding.md R65, counted from 0. -/
def rowIndex : Instr → Nat
  | .cls => 0 | .ret => 1 | .jp _ => 2 | .call _ => 3 | .seByte _ _ => 4 | .sneByte _ _ => 5
  | .seReg _ _ => 6 | .ldByte _ _ => 7 | .addByte _ _ => 8 | .ldReg _ _ => 9 | .orReg _ _ => 10
  | .andReg _ _ => 11 | .xorReg _ _ => 12 | .addReg _ _ => 13 | .subReg _ _ => 14 | .shr _ _ => 15
  | .subnReg _ _ => 16 | .shl _ _ => 17 | .sneReg _ _ => 18 | .ldI _ => 19 | .jpV0 _ => 20
  | .rnd _ _ => 21 | .drw _ _ _ => 22 | .skp _ => 23 | .sknp _ => 24 | .ldVxDT _ => 25
  | .ldVxK _ => 26 | .ldDT _ => 27 | .ldST _ => 28 | .addI _ => 29 | .ldF _ => 30 | .ldB _ => 31
  | .stRegs _ => 32 | .ldRegs _ => 33

/-- The row of R65 that an instruction belongs to. -/
def row (i : Instr) : Option Row := opcodeTable[rowIndex i]?

/-- The opcode of an instruction is selected by the instruction's own row of R65. -/
def Statement (i : Instr) : Prop := (row i).map (fun r => r.selects (encode i)) = some true

/-- A word of format `FNNN` under a mask given as nibble and address parts. -/
theorem fnnn_and (f m : BitVec 4) (nnn k : Addr) :
    encodeFNNN f nnn &&& encodeFNNN m k = encodeFNNN (f &&& m) (nnn &&& k) := BitVec.and_append

/-- A word of format `FXKK` under a mask given as family and low-byte parts. -/
theorem fxkk_and (f m : BitVec 4) (x : RegIx) (kk k : Byte) :
    encodeFXKK f x kk &&& encodeFXKK m 0 k = encodeFXKK (f &&& m) 0 (kk &&& k) := by
  unfold encodeFXKK
  rw [BitVec.and_append, BitVec.and_append]
  simp [regBits]

/-- A word of format `FXYN` under a mask given as family and low-nibble parts. -/
theorem fxyn_and (f m : BitVec 4) (x y : RegIx) (n k : BitVec 4) :
    encodeFXYN f x y n &&& encodeFXYN m 0 0 k = encodeFXYN (f &&& m) 0 0 (n &&& k) := by
  unfold encodeFXYN
  rw [BitVec.and_append, BitVec.and_append, BitVec.and_append]
  simp [regBits]

/-- The mask of a row whose address or registers and immediate are free. -/
theorem mask_F000_fnnn : (0xF000#16 : Word) = encodeFNNN 0xF#4 0x000#12 := by decide
theorem mask_F000_fxkk : (0xF000#16 : Word) = encodeFXKK 0xF#4 0 0x00#8 := by decide
theorem mask_F000_fxyn : (0xF000#16 : Word) = encodeFXYN 0xF#4 0 0 0x0#4 := by decide
theorem mask_F0FF : (0xF0FF#16 : Word) = encodeFXKK 0xF#4 0 0xFF#8 := by decide
theorem mask_F00F : (0xF00F#16 : Word) = encodeFXYN 0xF#4 0 0 0xF#4 := by decide

/-- The rows with mask F000 and an address. -/
theorem selects_fnnn (f : BitVec 4) (nnn : Addr) (code : Word)
    (h : encodeFNNN (f &&& 0xF#4) 0 = code) : (encodeFNNN f nnn &&& 0xF000#16 == code) = true := by
  rw [mask_F000_fnnn, fnnn_and]
  simpa using h

/-- The rows with mask F000, a register and an immediate. -/
theorem selects_fxkk (f : BitVec 4) (x : RegIx) (kk : Byte) (code : Word)
    (h : encodeFXKK (f &&& 0xF#4) 0 0 = code) : (encodeFXKK f x kk &&& 0xF000#16 == code) = true := by
  rw [mask_F000_fxkk, fxkk_and]
  simpa using h

/-- The row with mask F000, two registers and a count. -/
theorem selects_fxyk (f : BitVec 4) (x y : RegIx) (n : BitVec 4) (code : Word)
    (h : encodeFXYN (f &&& 0xF#4) 0 0 0 = code) :
    (encodeFXYN f x y n &&& 0xF000#16 == code) = true := by
  rw [mask_F000_fxyn, fxyn_and]
  simpa using h

/-- The rows with mask F0FF. -/
theorem selects_fxss (f : BitVec 4) (x : RegIx) (kk : Byte) (code : Word)
    (h : encodeFXKK (f &&& 0xF#4) 0 (kk &&& 0xFF#8) = code) :
    (encodeFXKK f x kk &&& 0xF0FF#16 == code) = true := by
  rw [mask_F0FF, fxkk_and]
  simpa using h

/-- The rows with mask F00F. -/
theorem selects_fxys (f : BitVec 4) (x y : RegIx) (n : BitVec 4) (code : Word)
    (h : encodeFXYN (f &&& 0xF#4) 0 0 (n &&& 0xF#4) = code) :
    (encodeFXYN f x y n &&& 0xF00F#16 == code) = true := by
  rw [mask_F00F, fxyn_and]
  simpa using h

theorem cls : Statement .cls :=
  rfl
theorem ret : Statement .ret :=
  rfl
theorem jp (nnn : Addr) : Statement (.jp nnn) :=
  congrArg some (selects_fnnn _ _ _ (by decide))
theorem call (nnn : Addr) : Statement (.call nnn) :=
  congrArg some (selects_fnnn _ _ _ (by decide))
theorem seByte (x : RegIx) (kk : Byte) : Statement (.seByte x kk) :=
  congrArg some (selects_fxkk _ _ _ _ (by decide))
theorem sneByte (x : RegIx) (kk : Byte) : Statement (.sneByte x kk) :=
  congrArg some (selects_fxkk _ _ _ _ (by decide))
theorem seReg (x : RegIx) (y : RegIx) : Statement (.seReg x y) :=
  congrArg some (selects_fxys _ _ _ _ _ (by decide))
theorem ldByte (x : RegIx) (kk : Byte) : Statement (.ldByte x kk) :=
  congrArg some (selects_fxkk _ _ _ _ (by decide))
theorem addByte (x : RegIx) (kk : Byte) : Statement (.addByte x kk) :=
  congrArg some (selects_fxkk _ _ _ _ (by decide))
theorem ldReg (x : RegIx) (y : RegIx) : Statement (.ldReg x y) :=
  congrArg some (selects_fxys _ _ _ _ _ (by decide))
theorem orReg (x : RegIx) (y : RegIx) : Statement (.orReg x y) :=
  congrArg some (selects_fxys _ _ _ _ _ (by decide))
theorem andReg (x : RegIx) (y : RegIx) : Statement (.andReg x y) :=
  congrArg some (selects_fxys _ _ _ _ _ (by decide))
theorem xorReg (x : RegIx) (y : RegIx) : Statement (.xorReg x y) :=
  congrArg some (selects_fxys _ _ _ _ _ (by decide))
theorem addReg (x : RegIx) (y : RegIx) : Statement (.addReg x y) :=
  congrArg some (selects_fxys _ _ _ _ _ (by decide))
theorem subReg (x : RegIx) (y : RegIx) : Statement (.subReg x y) :=
  congrArg some (selects_fxys _ _ _ _ _ (by decide))
theorem shr (x : RegIx) (y : RegIx) : Statement (.shr x y) :=
  congrArg some (selects_fxys _ _ _ _ _ (by decide))
theorem subnReg (x : RegIx) (y : RegIx) : Statement (.subnReg x y) :=
  congrArg some (selects_fxys _ _ _ _ _ (by decide))
theorem shl (x : RegIx) (y : RegIx) : Statement (.shl x y) :=
  congrArg some (selects_fxys _ _ _ _ _ (by decide))
theorem sneReg (x : RegIx) (y : RegIx) : Statement (.sneReg x y) :=
  congrArg some (selects_fxys _ _ _ _ _ (by decide))
theorem ldI (nnn : Addr) : Statement (.ldI nnn) :=
  congrArg some (selects_fnnn _ _ _ (by decide))
theorem jpV0 (nnn : Addr) : Statement (.jpV0 nnn) :=
  congrArg some (selects_fnnn _ _ _ (by decide))
theorem rnd (x : RegIx) (kk : Byte) : Statement (.rnd x kk) :=
  congrArg some (selects_fxkk _ _ _ _ (by decide))
theorem drw (x : RegIx) (y : RegIx) (n : Nat) : Statement (.drw x y n) :=
  congrArg some (selects_fxyk _ _ _ _ _ (by decide))
theorem skp (x : RegIx) : Statement (.skp x) :=
  congrArg some (selects_fxss _ _ _ _ (by decide))
theorem sknp (x : RegIx) : Statement (.sknp x) :=
  congrArg some (selects_fxss _ _ _ _ (by decide))
theorem ldVxDT (x : RegIx) : Statement (.ldVxDT x) :=
  congrArg some (selects_fxss _ _ _ _ (by decide))
theorem ldVxK (x : RegIx) : Statement (.ldVxK x) :=
  congrArg some (selects_fxss _ _ _ _ (by decide))
theorem ldDT (x : RegIx) : Statement (.ldDT x) :=
  congrArg some (selects_fxss _ _ _ _ (by decide))
theorem ldST (x : RegIx) : Statement (.ldST x) :=
  congrArg some (selects_fxss _ _ _ _ (by decide))
theorem addI (x : RegIx) : Statement (.addI x) :=
  congrArg some (selects_fxss _ _ _ _ (by decide))
theorem ldF (x : RegIx) : Statement (.ldF x) :=
  congrArg some (selects_fxss _ _ _ _ (by decide))
theorem ldB (x : RegIx) : Statement (.ldB x) :=
  congrArg some (selects_fxss _ _ _ _ (by decide))
theorem stRegs (x : RegIx) : Statement (.stRegs x) :=
  congrArg some (selects_fxss _ _ _ _ (by decide))
theorem ldRegs (x : RegIx) : Statement (.ldRegs x) :=
  congrArg some (selects_fxss _ _ _ _ (by decide))

end Sys2Proof.Laws.RowOfEncoding
end

