-- ==== Sys2Proof/Laws/Step.lean ====
section
/-! SUPPORT. What a step can do, said once. -/

namespace Sys2Proof.Machine

/-- A step that answers a next state fetched an instruction, ran it on the advanced state, and ticked
(R80). -/
theorem step_next_cases {s t : State} (h : step s = .next t) :
    s.pc.toNat ≤ 0xFFE ∧ ∃ i u, decodeWord (s.mem.word s.pc.toNat) = some i ∧
      exec i s.advance = .next u ∧ t = u.tick := by
  unfold step at h
  rcases fetch_cases s with ⟨hpc, e⟩ | ⟨_, e⟩
  · simp only [e] at h
    refine ⟨hpc, ?_⟩
    cases hd : decodeWord (s.mem.word s.pc.toNat) with
    | none => simp only [hd] at h; cases h
    | some i =>
      simp only [hd] at h
      cases he : exec i s.advance with
      | next u => simp only [he, finishCycle] at h; cases h; exact ⟨i, u, rfl, he, rfl⟩
      | fault f => simp only [he, finishCycle] at h; cases h
      | refused r => simp only [he, finishCycle] at h; cases h
  · simp only [e] at h; cases h

/-- A step that faults failed in fetch, in decode or in execute, in this order (R178). -/
theorem step_fault_cases {s : State} {f : Fault} (h : step s = .fault f) :
    (0xFFE < s.pc.toNat ∧
      f = .memoryOutOfRange none s.pc (max s.pc.toNat 4096) .fetch) ∨
    (s.pc.toNat ≤ 0xFFE ∧ decodeWord (s.mem.word s.pc.toNat) = none ∧
      f = .unknownInstruction (s.mem.word s.pc.toNat) s.pc) ∨
    (s.pc.toNat ≤ 0xFFE ∧ ∃ i, decodeWord (s.mem.word s.pc.toNat) = some i ∧
      exec i s.advance = .fault f) := by
  unfold step at h
  rcases fetch_cases s with ⟨hpc, e⟩ | ⟨hpc, e⟩
  · simp only [e] at h
    cases hd : decodeWord (s.mem.word s.pc.toNat) with
    | none => simp only [hd] at h; cases h; exact .inr (.inl ⟨hpc, rfl, rfl⟩)
    | some i =>
      simp only [hd] at h
      refine .inr (.inr ⟨hpc, i, rfl, ?_⟩)
      cases he : exec i s.advance with
      | next u => simp only [he, finishCycle] at h; cases h
      | fault g => simp only [he, finishCycle] at h; cases h; rfl
      | refused r => simp only [he, finishCycle] at h; cases h
  · simp only [e] at h; cases h; exact .inl ⟨hpc, rfl⟩

/-- When the opcode at `pc` decodes, the step is its execution and the tick. -/
theorem step_of_decode {s : State} {i : Instr} (hpc : s.pc.toNat ≤ 0xFFE)
    (hd : decodeWord (s.mem.word s.pc.toNat) = some i) :
    step s = finishCycle (exec i s.advance) := by
  unfold step
  rcases fetch_cases s with ⟨_, e⟩ | ⟨h, _⟩
  · rw [e]; simp only [hd]
  · omega

end Sys2Proof.Machine
end

