-- ==== Sys2Proof/Tests/Slice0.lean ====
section
/-! SUPPORT. The model's own tests: decoding of words written out from 30_encoding.md, single steps
whose results are the vectors of spec/95_test_vectors.md (the id stands in each comment), and for
every obligation with hypotheses a state that meets them. -/

namespace Sys2Proof.Tests

open Sys2Proof.Machine Sys2Proof.Claims

/-! ## Helpers -/

/-- The state of a vector before anything else is set: reset, with one opcode at `pc`. -/
def start (op : Nat) : State := State.reset.withFetchWord 16 op

/-- The same with `pc` somewhere else. -/
def startAt (pc : Word) (op : Nat) : State := State.withFetchWord { State.reset with pc := pc } 16 op

/-- The state with some registers set. -/
def withV (s : State) (rs : List (RegIx × Byte)) : State := rs.foldl (fun s p => s.setReg p.1 p.2) s

/-- The state with bytes stored from an address up. -/
def withMem (s : State) (a : Nat) (bs : List Byte) : State := { s with mem := s.mem.setBytes a bs }

/-- The state with some pixels on, each given as row and column. -/
def withOn (s : State) (ps : List (Fin 32 × Fin 64)) : State :=
  { s with fb := ps.foldl (fun fb p => fb.toggle p.1 p.2) s.fb }

/-- The state with some keys pressed. -/
def withKeys (s : State) (ks : List (Fin 16)) : State :=
  { s with keys := ks.foldl (fun v k => v.set k.val true) s.keys }

/-- The outcome is a next state with the property. -/
def gives (o : Outcome) (p : State → Bool) : Bool :=
  match o with
  | .next t => p t
  | _ => false

/-- The outcome is this fault. -/
def faults (o : Outcome) (f : Fault) : Bool :=
  match o with
  | .fault g => decide (g = f)
  | _ => false

/-- The next state of an outcome that has one. -/
def nextOf (o : Outcome) : State :=
  match o with
  | .next t => t
  | _ => State.reset

/-- The framebuffer with exactly these pixels on. -/
def lit (ps : List (Fin 32 × Fin 64)) : Framebuffer := (withOn State.reset ps).fb

theorem eq_next_of_gives {o : Outcome} {p : State → Bool} (h : gives o p = true) :
    o = .next (nextOf o) := by
  cases o <;> simp_all [gives, nextOf]

theorem eq_fault_of_faults {o : Outcome} {f : Fault} (h : faults o f = true) : o = .fault f := by
  cases o <;> simp_all [faults]

/-! ## Well-formedness -/

/-- A height that four bits cannot hold is refused; the largest that they can is not (R63). -/
theorem test_wellFormed_drw :
    Instr.WellFormed (.drw 0 0 16) = false ∧ Instr.WellFormed (.drw 15 15 15) = true := by decide

/-! ## Decoding: one hand-written word for every constructor (30_encoding.md R62, R65) -/

theorem test_decode_family_0 :
    decodeTableWord 16 0b0000000011100000 = some .cls ∧
    decodeTableWord 16 0b0000000011101110 = some .ret := by decide

theorem test_decode_jumps :
    decodeTableWord 16 0b0001101010111100 = some (.jp 0xABC) ∧
    decodeTableWord 16 0b0010001100000001 = some (.call 0x301) ∧
    decodeTableWord 16 0b1010001011110000 = some (.ldI 0x2F0) ∧
    decodeTableWord 16 0b1011111111110000 = some (.jpV0 0xFF0) := by decide

theorem test_decode_reg_byte :
    decodeTableWord 16 0b0011101001000010 = some (.seByte 10 0x42) ∧
    decodeTableWord 16 0b0100000110000001 = some (.sneByte 1 0x81) ∧
    decodeTableWord 16 0b0110101011111111 = some (.ldByte 10 0xFF) ∧
    decodeTableWord 16 0b0111111100000010 = some (.addByte 15 0x02) ∧
    decodeTableWord 16 0b1100001100001111 = some (.rnd 3 0x0F) := by decide

theorem test_decode_families_5_9_D :
    decodeTableWord 16 0b0101000100100000 = some (.seReg 1 2) ∧
    decodeTableWord 16 0b1001001000010000 = some (.sneReg 2 1) ∧
    decodeTableWord 16 0b1101000100100101 = some (.drw 1 2 5) := by decide

theorem test_decode_family_8 :
    decodeTableWord 16 0b1000000100100000 = some (.ldReg 1 2) ∧
    decodeTableWord 16 0b1000000100100001 = some (.orReg 1 2) ∧
    decodeTableWord 16 0b1000000100100010 = some (.andReg 1 2) ∧
    decodeTableWord 16 0b1000000100100011 = some (.xorReg 1 2) ∧
    decodeTableWord 16 0b1000000100100100 = some (.addReg 1 2) ∧
    decodeTableWord 16 0b1000000100100101 = some (.subReg 1 2) ∧
    decodeTableWord 16 0b1000000100100110 = some (.shr 1 2) ∧
    decodeTableWord 16 0b1000000100100111 = some (.subnReg 1 2) ∧
    decodeTableWord 16 0b1000000100101110 = some (.shl 1 2) := by decide

theorem test_decode_family_E :
    decodeTableWord 16 0b1110010010011110 = some (.skp 4) ∧
    decodeTableWord 16 0b1110010010100001 = some (.sknp 4) := by decide

theorem test_decode_family_F :
    decodeTableWord 16 0b1111001100000111 = some (.ldVxDT 3) ∧
    decodeTableWord 16 0b1111001100001010 = some (.ldVxK 3) ∧
    decodeTableWord 16 0b1111001100010101 = some (.ldDT 3) ∧
    decodeTableWord 16 0b1111001100011000 = some (.ldST 3) ∧
    decodeTableWord 16 0b1111001100011110 = some (.addI 3) ∧
    decodeTableWord 16 0b1111001100101001 = some (.ldF 3) ∧
    decodeTableWord 16 0b1111001100110011 = some (.ldB 3) ∧
    decodeTableWord 16 0b1111001101010101 = some (.stRegs 3) ∧
    decodeTableWord 16 0b1111001101100101 = some (.ldRegs 3) := by decide

/-- Undefined selectors are rejected by name, and so is a single byte (R66, R60). -/
theorem test_decode_rejects :
    decode [0x00#8, 0xE1#8] = .error (.unknownInstruction 0x00E1#16) ∧
    decode [0x81#8, 0x2F#8] = .error (.unknownInstruction 0x812F#16) ∧
    decode [0xE4#8, 0x9F#8] = .error (.unknownInstruction 0xE49F#16) ∧
    decode [0xF1#8, 0x1F#8] = .error (.unknownInstruction 0xF11F#16) ∧
    decode [0x12#8] = .error .truncated := by decide

/-! ## Register/byte instructions and skips -/

theorem test_ldByte : gives (step (withV (start 0x6AFF) [(10, 1)]))  -- V4.1
    (fun t => t.reg 10 == 0xFF && t.pc == 0x202) = true := by decide

theorem test_ldByte_vf : gives (step (start 0x6F37)) (fun t => t.reg 15 == 0x37) = true :=  -- V4.2
  by decide

theorem test_addByte_wraps_without_flag :  -- V4.3
    gives (step (withV (start 0x7001) [(0, 0xFF), (15, 7)]))
      (fun t => t.reg 0 == 0 && t.reg 15 == 7 && t.pc == 0x202) = true := by decide

theorem test_addByte_vf :  -- V4.4
    gives (step (withV (start 0x7F02) [(15, 0xFF)])) (fun t => t.reg 15 == 1) = true := by decide

theorem test_seByte :  -- V4.6, V4.7
    gives (step (withV (start 0x3A42) [(10, 0x42)])) (fun t => t.pc == 0x204) = true ∧
    gives (step (withV (start 0x3A42) [(10, 0x43)])) (fun t => t.pc == 0x202) = true := by decide

theorem test_seByte_leaves_memory :  -- V4.15
    gives (step (startAt 0xFFC 0x3000)) (fun t => t.pc == 0x1000) = true := by decide

theorem test_sneByte :  -- V4.8, V4.9
    gives (step (withV (start 0x4A42) [(10, 0x42)])) (fun t => t.pc == 0x202) = true ∧
    gives (step (withV (start 0x4A42) [(10, 0x43)])) (fun t => t.pc == 0x204) = true := by decide

theorem test_seReg :  -- V4.10, V4.11
    gives (step (withV (start 0x5120) [(1, 9), (2, 9)])) (fun t => t.pc == 0x204) = true ∧
    gives (step (withV (start 0x5120) [(1, 9), (2, 8)])) (fun t => t.pc == 0x202) = true := by decide

theorem test_sneReg :  -- V4.13, V4.14
    gives (step (withV (start 0x9120) [(1, 9), (2, 9)])) (fun t => t.pc == 0x202) = true ∧
    gives (step (withV (start 0x9120) [(1, 9), (2, 8)])) (fun t => t.pc == 0x204) = true := by decide

/-! ## ALU -/

theorem test_ldReg : gives (step (withV (start 0x8120) [(1, 0x11), (2, 0x22), (15, 9)]))  -- V8.1
    (fun t => t.reg 1 == 0x22 && t.reg 15 == 9 && t.pc == 0x202) = true := by decide

theorem test_orReg : gives (step (withV (start 0x8121) [(1, 0xF0), (2, 0x0F), (15, 9)]))  -- V8.2
    (fun t => t.reg 1 == 0xFF && t.reg 15 == 9) = true := by decide

theorem test_andReg : gives (step (withV (start 0x8122) [(1, 0xF3), (2, 0x3F), (15, 9)]))  -- V8.3
    (fun t => t.reg 1 == 0x33 && t.reg 15 == 9) = true := by decide

theorem test_xorReg : gives (step (withV (start 0x8123) [(1, 0xFF), (2, 0x0F), (15, 9)]))  -- V8.4
    (fun t => t.reg 1 == 0xF0 && t.reg 15 == 9) = true := by decide

theorem test_addReg_boundary :  -- V8.5b, V8.5c
    gives (step (withV (start 0x8014) [(0, 0xFF), (1, 0), (15, 1)]))
      (fun t => t.reg 0 == 0xFF && t.reg 15 == 0) = true ∧
    gives (step (withV (start 0x8014) [(0, 0xFF), (1, 1)]))
      (fun t => t.reg 0 == 0 && t.reg 15 == 1) = true := by decide

theorem test_addReg_vf :  -- V8.6, V8.7
    gives (step (withV (start 0x8F14) [(15, 200), (1, 100)])) (fun t => t.reg 15 == 44) = true ∧
    gives (step (withV (start 0x80F4) [(0, 250), (15, 10)]))
      (fun t => t.reg 0 == 4 && t.reg 15 == 1) = true := by decide

theorem test_subReg_equal :  -- V8.8
    gives (step (withV (start 0x8015) [(0, 0x33), (1, 0x33), (15, 1)]))
      (fun t => t.reg 0 == 0 && t.reg 15 == 0) = true := by decide

theorem test_subReg_borrow_and_vf :  -- V8.10b, V8.11b
    gives (step (withV (start 0x8015) [(0, 3), (1, 10), (15, 1)]))
      (fun t => t.reg 0 == 0xF9 && t.reg 15 == 0) = true ∧
    gives (step (withV (start 0x80F5) [(0, 10), (15, 3)]))
      (fun t => t.reg 0 == 7 && t.reg 15 == 1) = true := by decide

theorem test_shr_ignores_y :  -- V8.12b
    gives (step (withV (start 0x8236) [(2, 4), (3, 0xFF), (15, 1)]))
      (fun t => t.reg 2 == 2 && t.reg 15 == 0 && t.reg 3 == 0xFF) = true := by decide

theorem test_shr_bit_out :  -- V8.12, V8.12c
    gives (step (withV (start 0x8206) [(2, 5)])) (fun t => t.reg 2 == 2 && t.reg 15 == 1) = true ∧
    gives (step (withV (start 0x8F06) [(15, 3)])) (fun t => t.reg 15 == 1) = true := by decide

theorem test_subnReg :  -- V8.13, V8.15
    gives (step (withV (start 0x8017) [(0, 3), (1, 10)]))
      (fun t => t.reg 0 == 7 && t.reg 15 == 1) = true ∧
    gives (step (withV (start 0x8017) [(0, 10), (1, 3), (15, 1)]))
      (fun t => t.reg 0 == 0xF9 && t.reg 15 == 0) = true := by decide

theorem test_shl_bit_out :  -- V8.16, V8.16b
    gives (step (withV (start 0x820E) [(2, 0x81)]))
      (fun t => t.reg 2 == 2 && t.reg 15 == 1) = true ∧
    gives (step (withV (start 0x823E) [(2, 0x40), (3, 0xFF), (15, 1)]))
      (fun t => t.reg 2 == 0x80 && t.reg 15 == 0) = true := by decide

theorem test_shl_vf :  -- V8.16c
    gives (step (withV (start 0x8F0E) [(15, 0xC0)])) (fun t => t.reg 15 == 0x80) = true := by decide

/-! ## Control transfer -/

theorem test_jp : gives (step (start 0x1ABC)) (fun t => t.pc == 0xABC) = true := by decide  -- VC.1

theorem test_call : gives (step (start 0x2300))  -- VC.4
    (fun t => t.stack.get 0 == 0x202 && t.sp == 1 && t.pc == 0x300) = true := by decide

theorem test_call_deep :  -- VC.5, VC.6
    gives (step { startAt 0x456 0x2300 with sp := 15 })
      (fun t => t.stack.get 15 == 0x458 && t.sp == 16 && t.pc == 0x300) = true ∧
    faults (step { start 0x2300 with sp := 16 }) (.stackOverflow 0x2300 0x200 16) = true := by decide

theorem test_ret :  -- VC.7, VC.9
    gives (step { startAt 0x300 0x00EE with sp := 1, stack := State.reset.stack.set 0 0x202 })
      (fun t => t.sp == 0 && t.pc == 0x202 && t.stack.get 0 == 0x202) = true ∧
    gives (step { startAt 0x300 0x00EE with sp := 16, stack := State.reset.stack.set 15 0xABC })
      (fun t => t.sp == 15 && t.pc == 0xABC) = true := by decide

theorem test_ret_empty :  -- VC.8
    faults (step { startAt 0x300 0x00EE with stack := State.reset.stack.set 0 0x202 })
      (.stackUnderflow 0x00EE 0x300 0) = true := by decide

theorem test_jpV0 :  -- VC.10, VC.11
    gives (step (withV (start 0xB300) [(0, 0x10)])) (fun t => t.pc == 0x310) = true ∧
    gives (step (withV (start 0xBFFF) [(0, 0xFF)])) (fun t => t.pc == 0x10FE) = true := by decide

theorem test_unknown :  -- VC.13, V4.16, V8.17, VK.24
    faults (step (start 0x0000)) (.unknownInstruction 0x0000 0x200) = true ∧
    faults (step (start 0x5121)) (.unknownInstruction 0x5121 0x200) = true ∧
    faults (step (start 0x8128)) (.unknownInstruction 0x8128 0x200) = true ∧
    faults (step (start 0xF000)) (.unknownInstruction 0xF000 0x200) = true := by decide

/-! ## Index register, BCD, block transfer -/

theorem test_ldI : gives (step (start 0xA2F0)) (fun t => t.i == 0x2F0) = true := by decide  -- VI.1

theorem test_addI :  -- VI.4, VI.5
    gives (step (withV { start 0xF21E with i := 0xFFFF } [(2, 1)])) (fun t => t.i == 0) = true ∧
    gives (step (withV { start 0xF21E with i := 0x0FFF } [(2, 1), (15, 5)]))
      (fun t => t.i == 0x1000 && t.reg 15 == 5) = true := by decide

theorem test_ldF :  -- VI.7, VI.8
    gives (step (withV (start 0xF329) [(3, 0x1A)])) (fun t => t.i == 0x82) = true ∧
    gives (step (withV (start 0xF329) [(3, 0xFF)])) (fun t => t.i == 0x9B) = true := by decide

theorem test_ldB :  -- VI.9, VI.13
    gives (step (withV { start 0xF033 with i := 0x300 } [(0, 157)]))
      (fun t => t.mem.bytes 0x300 3 == [1, 5, 7]) = true ∧
    gives (step (withV { start 0xF033 with i := 0xFFD } [(0, 123)]))
      (fun t => t.mem.bytes 0xFFD 3 == [1, 2, 3]) = true := by decide

theorem test_ldB_out_of_range :  -- VI.14, VI.14c
    faults (step (withV { start 0xF033 with i := 0xFFE } [(0, 123)]))
      (.memoryOutOfRange (some 0xF033) 0x200 0x1000 .write) = true ∧
    faults (step (withV { start 0xF033 with i := 0xFFFF } [(0, 123)]))
      (.memoryOutOfRange (some 0xF033) 0x200 0xFFFF .write) = true := by decide

theorem test_stRegs :  -- VI.15
    gives (step (withV { start 0xF355 with i := 0x400 } [(0, 10), (1, 20), (2, 30), (3, 40), (4, 50)]))
      (fun t => t.mem.bytes 0x400 5 == [10, 20, 30, 40, 0] && t.i == 0x400) = true := by decide

theorem test_stRegs_edge :  -- VI.18, VI.19
    faults (step (withV { start 0xF255 with i := 0xFFE } [(0, 1), (1, 2), (2, 3)]))
      (.memoryOutOfRange (some 0xF255) 0x200 0x1000 .write) = true ∧
    gives (step (withV { start 0xF255 with i := 0xFFD } [(0, 1), (1, 2), (2, 3)]))
      (fun t => t.mem.bytes 0xFFD 3 == [1, 2, 3]) = true := by decide

theorem test_ldRegs :  -- VI.20
    gives (step (withMem (withV { start 0xF365 with i := 0x400 } [(4, 0x77)]) 0x400 [10, 20, 30, 40, 50]))
      (fun t => t.v.toList.take 5 == [10, 20, 30, 40, 0x77] && t.i == 0x400) = true := by decide

theorem test_ldRegs_edge :  -- VI.22, VI.23
    faults (step (withV { start 0xF165 with i := 0xFFF } [(0, 5), (1, 6)]))
      (.memoryOutOfRange (some 0xF165) 0x200 0x1000 .read) = true ∧
    gives (step (withMem { start 0xF065 with i := 0xFFF } 0xFFF [0x99]))
      (fun t => t.reg 0 == 0x99) = true := by decide

/-! ## Display -/

theorem test_cls :  -- VD.1
    gives (step (withV (withOn (start 0x00E0) [(0, 0), (5, 7), (31, 63)]) [(15, 1)]))
      (fun t => decide (t.fb = lit []) && t.reg 15 == 1) = true := by decide

theorem test_drw_clips_and_wraps_origin :  -- VD.4, VD.6
    gives (step (withMem (withV { start 0xD012 with i := 0x300 } [(0, 62), (1, 31)]) 0x300 [0xC0, 0xC0]))
      (fun t => decide (t.fb = lit [(31, 62), (31, 63)]) && t.reg 15 == 0) = true ∧
    gives (step (withMem (withV { start 0xD011 with i := 0x300 } [(0, 126), (1, 63)]) 0x300 [0x80]))
      (fun t => decide (t.fb = lit [(31, 62)]) && t.reg 15 == 0) = true := by decide

theorem test_drw_collision_and_latch :  -- VD.11, VD.12
    gives (step (withMem (withOn { start 0xD011 with i := 0x300 } [(0, 0), (0, 1), (0, 2), (0, 3)])
      0x300 [0x3C]))
      (fun t => decide (t.fb = lit [(0, 0), (0, 1), (0, 4), (0, 5)]) && t.reg 15 == 1) = true ∧
    gives (step (withMem (withV { start 0xDFF1 with i := 0x300 } [(15, 5)]) 0x300 [0x80]))
      (fun t => decide (t.fb = lit [(5, 5)]) && t.reg 15 == 0) = true := by decide

theorem test_drw_range :  -- VD.7, VD.8
    gives (step (withV { start 0xD010 with i := 0xFFFF } [(0, 3), (1, 2), (15, 1)]))
      (fun t => decide (t.fb = lit []) && t.reg 15 == 0) = true ∧
    faults (step (withMem { start 0xD012 with i := 0xFFF } 0xFFF [0xFF]))
      (.memoryOutOfRange (some 0xD012) 0x200 0x1000 .read) = true := by decide

/-! ## Keys, timers, random -/

theorem test_skp :  -- VK.1, VK.2
    gives (step (withKeys (withV (start 0xE49E) [(4, 10)]) [10])) (fun t => t.pc == 0x204) = true ∧
    gives (step (withV (start 0xE49E) [(4, 10)])) (fun t => t.pc == 0x202) = true := by decide

theorem test_sknp :  -- VK.3, VK.4
    gives (step (withV (start 0xE4A1) [(4, 10)])) (fun t => t.pc == 0x204) = true ∧
    gives (step (withKeys (withV (start 0xE4A1) [(4, 10)]) [10])) (fun t => t.pc == 0x202) = true := by
  decide

theorem test_skp_sknp_no_such_key :  -- VK.5, VK.6
    faults (step (withKeys (withV (start 0xE49E) [(4, 16)]) [0]))
      (.keyIndexOutOfRange 0xE49E 0x200 16) = true ∧
    faults (step (withV (start 0xE4A1) [(4, 0xFF)])) (.keyIndexOutOfRange 0xE4A1 0x200 255) = true := by
  decide

theorem test_ldVxK_lowest :  -- VK.10
    gives (step (withKeys (withV (startAt 0x204 0xF10A) [(1, 0xEE)]) [7, 9]))
      (fun t => t.reg 1 == 7 && t.pc == 0x206) = true := by decide

theorem test_ldVxK_repeats :  -- VK.11
    gives (step (withV { startAt 0x204 0xF10A with dt := 3, st := 1 } [(1, 0xEE)]))
      (fun t => t.pc == 0x204 && t.dt == 2 && t.st == 0 && t.reg 1 == 0xEE) = true := by decide

theorem test_ldVxDT :  -- VK.14, VK.15
    gives (step { start 0xF307 with dt := 0x1E }) (fun t => t.reg 3 == 0x1E && t.dt == 0x1D) = true ∧
    gives (step (withV (start 0xF307) [(3, 9)])) (fun t => t.reg 3 == 0 && t.dt == 0) = true := by decide

theorem test_ldDT :  -- VK.18, VK.20
    gives (step { start 0xF015 with dt := 200 }) (fun t => t.dt == 0) = true ∧
    gives (step (withV { start 0xF015 with st := 1 } [(0, 255)]))
      (fun t => t.dt == 254 && t.st == 0) = true := by decide

theorem test_ldST :  -- VK.19
    gives (step (withV (start 0xF218) [(2, 3)])) (fun t => t.st == 2 && t.dt == 0) = true := by decide

/-- VK.22: with mask 0 the result is 0 whatever byte is drawn. -/
theorem test_rnd_mask_zero (s : State) : gives (exec (.rnd 3 0x00) (withV s [(3, 0x55)]))
    (fun t => t.reg 3 == 0 && t.draws == s.draws + 1) = true := by
  simp [exec, execRnd, writeResult, gives, withV, State.setReg, State.reg, Vector.get_eq_getElem]

/-- VK.21 and VK.23: the mask is applied to the byte drawn; 0xFF keeps it whole. -/
theorem test_rnd_mask_full (s : State) : gives (exec (.rnd 3 0xFF) s)
    (fun t => t.reg 3 == Config.freeByte s.draws) = true := by
  simp only [exec, execRnd, writeResult, gives, State.setReg, State.reg, Vector.get_eq_getElem]
  simp only [Vector.getElem_set_self, beq_iff_eq]
  exact BitVec.and_allOnes

/-! ## Fetch, load, reset -/

theorem test_fetch_edges :  -- VF.1, VF.2, VF.3
    faults (step { State.reset with pc := 0xFFF })
      (.memoryOutOfRange none 0xFFF 0x1000 .fetch) = true ∧
    faults (step { State.reset with pc := 0x1000 })
      (.memoryOutOfRange none 0x1000 0x1000 .fetch) = true ∧
    faults (step { State.reset with pc := 0x10FE })
      (.memoryOutOfRange none 0x10FE 0x10FE .fetch) = true := by decide

theorem test_fetch_anywhere :  -- VF.4, VF.6, VF.7
    gives (step (startAt 0xFFE 0x6012)) (fun t => t.reg 0 == 0x12 && t.pc == 0x1000) = true ∧
    gives (step (startAt 0x201 0x6012)) (fun t => t.reg 0 == 0x12 && t.pc == 0x203) = true ∧
    gives (step (startAt 0 0x6012)) (fun t => t.reg 0 == 0x12 && t.pc == 2) = true := by decide

theorem test_fetch_big_endian :  -- VF.8
    gives (step (withMem State.reset 0x200 [0x12, 0x34])) (fun t => t.pc == 0x234) = true := by decide

theorem test_load_tail_stays :  -- VL.4
    gives (load [0xAA, 0xBB] (withMem State.reset 0x200 [0x11, 0x22, 0x33, 0x44]))
      (fun t => t.mem.bytes 0x200 4 == [0xAA, 0xBB, 0x33, 0x44] && t.pc == 0x200) = true := by decide

theorem test_reset_command :  -- VL.5
    gives (perform params.font .reset (withMem (withMem { State.reset with pc := 0x2A0, sp := 2, dt := 9 }
      0x200 [0x60]) 0x050 [0])) (fun t => decide (t = State.reset) && t.mem.byte 0x050 == 0xF0) = true := by
  decide

/-- Another font stands where R57 puts it, and nothing else changes. -/
theorem test_resetWith_other_font :
    let s := State.resetWith (Vector.replicate 80 0xA0)
    (s.mem.byte 0x04F, s.mem.byte 0x050, s.mem.byte 0x09F, s.mem.byte 0x0A0) = (0, 0xA0, 0xA0, 0) ∧
    s.pc = 0x200 := by decide

/-- The last glyph of the font table (R57): F at 0x09B to 0x09F, and zeros around the font. -/
theorem test_font_glyph_F :
    State.reset.mem.bytes 0x09B 6 = [0xF0, 0x80, 0xF0, 0x80, 0x80, 0x00] ∧
    State.reset.mem.byte 0x04F = 0 := by decide

/-! ## Witnesses: for every obligation with hypotheses, a state that meets them

One theorem for each, with one clause for each clause of the statement, at the edge of its range. -/

/-- DecodeOfEncodeIsIdentity: a well-formed instruction at the largest height. -/
theorem witness_DecodeOfEncodeIsIdentity : Instr.WellFormed (.drw 15 15 15) = true := by decide

/-- EncodeOfDecodeIsIdentity: a word that decodes, with a nonzero ignored `Y`. -/
theorem witness_EncodeOfDecodeIsIdentity : decodeWord 0x8236#16 = some (.shr 2 3) := by decide

/-- UnknownInstructionRaisedForExactlyTheListedWords: both sides hold, at the last fetchable `pc`. -/
theorem witness_UnknownInstruction :
    step { State.reset with pc := 0xFFE } = .fault (.unknownInstruction 0x0000 0xFFE) ∧
    FetchedWord { State.reset with pc := 0xFFE } 0x0000#16 ∧ UnknownWord 0x0000#16 ∧
    UnknownWord 0x812F#16 ∧ ¬ UnknownWord 0x812E#16 :=
  ⟨eq_fault_of_faults (by decide), by unfold FetchedWord; decide, by unfold UnknownWord; decide,
    by unfold UnknownWord; decide, by unfold UnknownWord; decide⟩

/-- StepRunsDecodedInstruction, TimersTickOncePerSuccessfulCycle and PcAtEndOfCycle: an instruction
in the last two bytes of memory that completes, one that faults, and the timer writes. -/
theorem witness_StepRunsDecodedInstruction :
    FetchedInstr (startAt 0xFFE 0x6012) (.ldByte 0 0x12) ∧
    step (startAt 0xFFE 0x6012) = .next (nextOf (step (startAt 0xFFE 0x6012))) ∧
    exec (.ldByte 0 0x12) (afterFetch (startAt 0xFFE 0x6012)) =
      .next (nextOf (exec (.ldByte 0 0x12) (afterFetch (startAt 0xFFE 0x6012)))) ∧
    FetchedInstr (start 0x00EE) .ret ∧
    exec .ret (afterFetch (start 0x00EE)) = .fault (.stackUnderflow 0x00EE 0x200 0) :=
  ⟨by unfold FetchedInstr; decide, eq_next_of_gives (p := fun _ => true) (by decide),
    eq_next_of_gives (p := fun _ => true) (by decide), by unfold FetchedInstr; decide,
    eq_fault_of_faults (by decide)⟩

theorem witness_TimersTickOncePerSuccessfulCycle :
    FetchedInstr (start 0xF015) (.ldDT 0) ∧
    step (start 0xF015) = .next (nextOf (step (start 0xF015))) ∧
    FetchedInstr (start 0xF018) (.ldST 0) ∧
    step (start 0xF018) = .next (nextOf (step (start 0xF018))) :=
  ⟨by unfold FetchedInstr; decide, eq_next_of_gives (p := fun _ => true) (by decide),
    by unfold FetchedInstr; decide, eq_next_of_gives (p := fun _ => true) (by decide)⟩

/-- PcAtEndOfCycle: a skip taken from the last fetchable address, a return, a key wait with and
without a key. -/
theorem witness_PcAtEndOfCycle :
    FetchedInstr (startAt 0xFFE 0x3000) (.seByte 0 0) ∧ SkipHolds (.seByte 0 0) (startAt 0xFFE 0x3000) ∧
    step (startAt 0xFFE 0x3000) = .next (nextOf (step (startAt 0xFFE 0x3000))) ∧
    FetchedInstr { start 0x00EE with sp := 16 } .ret ∧
    step { start 0x00EE with sp := 16 } = .next (nextOf (step { start 0x00EE with sp := 16 })) ∧
    FetchedInstr (withKeys (start 0xF10A) [15]) (.ldVxK 1) ∧
    step (withKeys (start 0xF10A) [15]) = .next (nextOf (step (withKeys (start 0xF10A) [15]))) ∧
    FetchedInstr (start 0xF10A) (.ldVxK 1) ∧
    step (start 0xF10A) = .next (nextOf (step (start 0xF10A))) :=
  ⟨by unfold FetchedInstr; decide, by unfold SkipHolds; decide,
    eq_next_of_gives (p := fun _ => true) (by decide),
    by unfold FetchedInstr; decide, eq_next_of_gives (p := fun _ => true) (by decide),
    by unfold FetchedInstr; decide, eq_next_of_gives (p := fun _ => true) (by decide),
    by unfold FetchedInstr; decide, eq_next_of_gives (p := fun _ => true) (by decide)⟩

theorem witness_FetchIsBigEndian : (startAt 0xFFE 0x6012).pc.toNat ≤ 0xFFE := by decide

theorem witness_FetchAboveMemoryFaults :
    0xFFE < ({ State.reset with pc := 0x0FFF } : State).pc.toNat ∧
    0xFFE < ({ State.reset with pc := 0x1000 } : State).pc.toNat := by decide

/-- FaultsDependOnlyOnPcMemSpIndexAndRegisters: two states that differ in keys, timers and draws. -/
theorem witness_FaultsDepend :
    let s := withV (start 0xE49E) [(4, 16)]
    let s' := withKeys { s with dt := 5, draws := 7 } [0]
    s'.pc = s.pc ∧ s'.mem = s.mem ∧ s'.sp = s.sp ∧ s'.i = s.i ∧ s'.v = s.v ∧
      step s = .fault (.keyIndexOutOfRange 0xE49E 0x200 16) :=
  ⟨rfl, rfl, rfl, rfl, rfl, eq_fault_of_faults (by decide)⟩

/-- StepFaultRecordHoldsOpcodeAndAddress: a fault of the execute phase and one of the fetch. -/
theorem witness_StepFaultRecord :
    step (startAt 0xFFE 0x00EE) = .fault (.stackUnderflow 0x00EE 0xFFE 0) ∧
    (startAt 0xFFE 0x00EE).pc.toNat ≤ 0xFFE ∧
    step { State.reset with pc := 0x0FFF } = .fault (.memoryOutOfRange none 0xFFF 0x1000 .fetch) ∧
    0xFFE < ({ State.reset with pc := 0x0FFF } : State).pc.toNat :=
  ⟨eq_fault_of_faults (by decide), by decide, eq_fault_of_faults (by decide), by decide⟩

theorem witness_TwentySix : RaisesNothing (.ldVxK 0) = true ∧ RaisesNothing .ret = false := by decide

/-- ExecuteFaultsAreExactlyTheTabledOnes: each disjunct at the first value that faults, and the last
value that does not. -/
theorem witness_ExecuteFaults :
    faults (exec (.call 0) { State.reset with sp := 16 }) (.stackOverflow 0x2000 0x1FE 16) = true ∧
    faults (exec .ret State.reset) (.stackUnderflow 0x00EE 0x1FE 0) = true ∧
    faults (exec (.drw 0 1 1) { State.reset with i := 0x1000 })
      (.memoryOutOfRange (some 0xD011) 0x1FE 0x1000 .read) = true ∧
    gives (exec (.drw 0 1 1) { State.reset with i := 0xFFF }) (fun _ => true) = true ∧
    faults (exec (.ldB 0) { State.reset with i := 0xFFE })
      (.memoryOutOfRange (some 0xF033) 0x1FE 0x1000 .write) = true ∧
    faults (exec (.stRegs 0) { State.reset with i := 0x1000 })
      (.memoryOutOfRange (some 0xF055) 0x1FE 0x1000 .write) = true ∧
    faults (exec (.ldRegs 15) { State.reset with i := 0xFF1 })
      (.memoryOutOfRange (some 0xFF65) 0x1FE 0x1000 .read) = true ∧
    gives (exec (.ldRegs 15) { State.reset with i := 0xFF0 }) (fun _ => true) = true ∧
    faults (exec (.skp 0) (withV State.reset [(0, 16)])) (.keyIndexOutOfRange 0xE09E 0x1FE 16) = true ∧
    gives (exec (.sknp 0) (withV State.reset [(0, 15)])) (fun _ => true) = true := by decide

/-- StepKeepsInvariant: a state that meets the invariant and a cycle that succeeds in it. -/
theorem witness_StepKeepsInvariant : (start 0x2300).Inv ∧
    step (start 0x2300) = .next (nextOf (step (start 0x2300))) :=
  ⟨⟨by decide, by decide, by decide⟩, eq_next_of_gives (p := fun _ => true) (by decide)⟩

/-- HostCommandsKeepInvariant: a load, a key press and a cycle, from reset. -/
theorem witness_HostCommandsKeepInvariant :
    let cs : List Command :=
      [.reset, .load [0x12, 0x00], .setKeys (State.reset.keys.set 0 true), .step]
    State.reset.Inv ∧ performAll params.font cs State.reset = .next (nextOf (performAll params.font cs State.reset)) :=
  ⟨⟨rfl, by decide, by decide⟩, eq_next_of_gives (p := fun _ => true) (by decide)⟩

/-- InstructionsChangeOnlyTheirDestinations: a store in a canonical memory, up to its last byte. -/
theorem witness_InstructionsChangeOnlyTheirDestinations :
    let s := { State.reset with i := 0xFFD }
    s.mem.wf = true ∧ exec (.ldB 0) s = .next (nextOf (exec (.ldB 0) s)) :=
  ⟨rfl, eq_next_of_gives (p := fun _ => true) (by decide)⟩

/-- The clauses `x ≠ 15`, and the other registers, of the six statements about flags and of
DrawingTwiceRestoresFramebuffer. -/
theorem witness_flag_clauses : (14 : RegIx) ≠ 15 ∧ (0 : RegIx) ≠ 14 ∧ (0 : RegIx) ≠ 15 := by decide

theorem witness_CallPushesReturnAddress :
    ({ State.reset with sp := 15 } : State).sp.val < 16 ∧
    ({ State.reset with sp := 16 } : State).sp.val = 16 := by decide

theorem witness_ReturnPopsAddress :
    ({ State.reset with sp := 1 } : State).sp.val = (0 : Fin 16).val + 1 ∧
    ({ State.reset with sp := 16 } : State).sp.val = (15 : Fin 16).val + 1 ∧
    State.reset.sp.val = 0 := by decide

theorem witness_ReturnUndoesCall :
    let s := { State.reset with sp := 15 }
    exec (.call 0x300) s = .next (nextOf (exec (.call 0x300) s)) :=
  eq_next_of_gives (p := fun _ => true) (by decide)

theorem witness_SelfJumpOnlyTicks : (startAt 0xFFE 0x1FFE).SelfJump :=
  ⟨0xFFE, by decide, by rfl⟩

theorem witness_BcdStoresThreeDigits :
    let s := { State.reset with i := 0xFFD }
    s.mem.wf = true ∧ s.i.toNat + 2 ≤ 0xFFF ∧
      0xFFF < ({ State.reset with i := 0xFFE } : State).i.toNat + 2 := by decide

theorem witness_BlockTransfers :
    let s := { State.reset with i := 0xFF0 }
    s.mem.wf = true ∧ s.i.toNat + (15 : RegIx).val ≤ 0xFFF ∧
      0xFFF < ({ State.reset with i := 0xFF1 } : State).i.toNat + (15 : RegIx).val ∧
      0xFFF < ({ State.reset with i := 0x1000 } : State).i.toNat + (0 : RegIx).val := by decide

theorem witness_BlockTransferRoundTrip :
    let s := withV { State.reset with i := 0xFF0 } [(3, 40)]
    s.mem.wf = true ∧ exec (.stRegs 15) s = .next (nextOf (exec (.stRegs 15) s)) :=
  ⟨rfl, eq_next_of_gives (p := fun _ => true) (by decide)⟩

/-- StoredInstructionIsFetchedAtOnce: V0, V1 stored over the next instruction (VI.24). -/
theorem witness_StoredInstructionIsFetchedAtOnce :
    let s := withV { State.reset with i := 0x200 } [(0, 0x12), (1, 0x34)]
    s.mem.wf = true ∧ 1 ≤ (1 : RegIx).val ∧ s.i = s.pc ∧
      exec (.stRegs 1) s = .next (nextOf (exec (.stRegs 1) s)) :=
  ⟨rfl, by decide, rfl, eq_next_of_gives (p := fun _ => true) (by decide)⟩

/-- DrawXorsSpriteAndReportsCollision: height 0 with `I` outside memory, the tallest sprite that ends
at 0xFFF; a collision, and no pixel on at all. -/
theorem witness_DrawXorsSpriteAndReportsCollision :
    ({ State.reset with i := 0xFF1 } : State).i.toNat + 15 - 1 ≤ 0xFFF ∧
    (withOn State.reset [(0, 0)]).fb.pixel 0 0 = true ∧
    drwBit { withOn State.reset [(0, 0)] with i := 0x050 } 0 1 1 0 0 = true ∧
    ∀ py px, State.reset.fb.pixel py px = true → drwBit State.reset 0 1 1 py px = false :=
  ⟨by decide, by decide, by decide, fun py px h => by
    rw [show State.reset.fb.pixel py px = false from Framebuffer.pixel_off py px] at h; cases h⟩

theorem witness_DrawOutsideMemoryFaults :
    0xFFF < ({ State.reset with i := 0xFFF } : State).i.toNat + 2 - 1 := by decide

/-- DrawingTwiceRestoresFramebuffer: the glyph 0 drawn twice; the first draw turns a pixel on. -/
theorem witness_DrawingTwiceRestoresFramebuffer :
    let s := { State.reset with i := 0x050 }
    let t := nextOf (exec (.drw 0 1 5) s)
    exec (.drw 0 1 5) s = .next t ∧ exec (.drw 0 1 5) t = .next (nextOf (exec (.drw 0 1 5) t)) ∧
      s.fb.pixel 0 0 = false ∧ t.fb.pixel 0 0 = true :=
  ⟨eq_next_of_gives (p := fun _ => true) (by decide),
    eq_next_of_gives (p := fun _ => true) (by decide), by decide, by decide⟩

theorem witness_WrapPolicyDrawsEveryPixel :
    (63 < 64) ∧ (31 < 32) ∧ (List.replicate 15 0xFF#8).length ≤ 15 := by decide

theorem witness_KeySkipsTestTheNumberedKey :
    ((withV State.reset [(0, 15)]).reg 0).toNat = (15 : Fin 16).val ∧
    15 < ((withV State.reset [(0, 16)]).reg 0).toNat := by decide

theorem witness_KeyWaitTakesLowestKeyOrRepeats :
    ((withKeys State.reset [15]).keys.get 15 = true ∧
      ∀ j : Fin 16, j < 15 → (withKeys State.reset [15]).keys.get j = false) ∧
    (∀ k : Fin 16, (start 0xF10A).keys.get k = false) ∧
    FetchedWord (start 0xF10A) (0xF#4 ++ (regBits 1 ++ 0x0A#8)) :=
  ⟨by decide, by decide, by unfold FetchedWord; decide⟩

theorem witness_timer_clauses :
    FetchedWord (startAt 0xFFE 0xF307) (0xF#4 ++ (regBits 3 ++ 0x07#8)) ∧
    FetchedWord (startAt 0xFFE 0xF315) (0xF#4 ++ (regBits 3 ++ 0x15#8)) ∧
    FetchedWord (startAt 0xFFE 0xF318) (0xF#4 ++ (regBits 3 ++ 0x18#8)) := by
  unfold FetchedWord; decide

theorem witness_LoadCopiesImage :
    State.reset.mem.wf = true ∧ (List.replicate 3584 0xAA#8).length ≤ 3584 :=
  ⟨rfl, le_of_eq List.length_replicate⟩

theorem witness_OversizeImageIsRejected : 3584 < (List.replicate 3585 0xAA#8).length := by
  rw [List.length_replicate]; decide

/-- GlyphsStandAtTheirFontAddresses: the reset state with glyph F asked for, on another font. -/
theorem witness_GlyphsStandAtTheirFontAddresses :
    let font : Font := Vector.replicate 80 0xA0
    ((State.resetWith font).setReg 0 0xFF).mem = (State.resetWith font).mem :=
  State.setReg_mem _ _ _

/-- CanonicalMemoriesReadingAlikeAreEqual: a byte written and written back to its reset content. -/
theorem witness_CanonicalMemories :
    let m : Memory := Memory.set (Memory.set [] 0xFFF 0x12) 0xFFF 0x00
    let m' : Memory := []
    m.wf = true ∧ m'.wf = true ∧ ∀ a, a < 4096 → m.byte a = m'.byte a :=
  ⟨by decide, rfl, fun _ _ => rfl⟩

end Sys2Proof.Tests
end

section
/-! The reset state, element by element and byte by byte (10_state.md R24). -/

namespace Sys2Proof.Machine

/-! ## Elements of the reset state that do not depend on the font -/

@[simp] theorem State.reset_stack_get (k : Fin 16) : State.reset.stack.get k = 0 :=
  Vector.get_replicate 16 0 k

@[simp] theorem State.reset_keys_get (k : Fin 16) : State.reset.keys.get k = false :=
  Vector.get_replicate 16 false k

/-- The framebuffer after reset is the one `00E0` leaves (R140). -/
@[simp] theorem State.reset_pixel (y : Fin 32) (x : Fin 64) : State.reset.fb.pixel y x = false :=
  Framebuffer.pixel_off y x

@[simp] theorem State.resetWith_reg (font : Font) (r : RegIx) :
    (State.resetWith font).reg r = 0 :=
  Vector.get_replicate 16 0 r

/-! ## Memory after reset -/

/-- The reset content of an address, with the font read as a list by a total access, as the
statements about it do: the font at 0x050 to 0x09F, zero elsewhere (R24, R57). -/
theorem resetByte_eq_getD (font : Font) (a : Nat) :
    resetByte font a =
      if 0x050 ≤ a ∧ a ≤ 0x09F then font.toList.getD (a - 0x050) 0 else 0 := by
  unfold resetByte
  by_cases h : 0x050 ≤ a ∧ a ≤ 0x09F
  · have hfont : fontBase ≤ a ∧ a < fontBase + 80 := by rw [fontBase_eq]; omega
    have hix : a - 0x050 < font.toList.length := by rw [Vector.length_toList]; omega
    rw [dif_pos hfont, if_pos h, List.getD_eq_getElem _ _ hix, Vector.getElem_toList]
  · have hfont : ¬ (fontBase ≤ a ∧ a < fontBase + 80) := by rw [fontBase_eq]; omega
    rw [dif_neg hfont, if_neg h]
    rfl

/-! ## The obligation -/

/-- Settles O53: the registers, stack, keys and pixels are replicated zeros, the scalars are those of
`State.reset` whatever the font, and memory reads as `resetByte`. -/
theorem resetStateIsAsTabled : Obligations.ResetStateIsAsTabled := by
  refine ⟨fun font => ⟨State.resetWith_reg font, rfl, rfl, State.reset_stack_get, rfl, rfl, rfl,
    State.reset_keys_get, State.reset_pixel, fun a _ => ?_⟩, State.resetWith_params⟩
  rw [State.resetWith_mem, Memory.byte_withFont, resetByte_eq_getD]

end Sys2Proof.Machine
end

section
/-! Fetch from the two bytes at `pc`: the opcode's value and its fields in terms of the byte each
stands in (20_memory.md R46). -/

namespace Sys2Proof

/-- The byte of the lower address weighs 256 (R46). -/
theorem toNat_wordOfBytes (hi lo : Byte) :
    (wordOfBytes hi lo).toNat = hi.toNat * 256 + lo.toNat := by
  rw [wordOfBytes, BitVec.toNat_append, ← Nat.shiftLeft_add_eq_or_of_lt lo.isLt,
    Nat.shiftLeft_eq]

/-- The family is the high nibble of the byte at the lower address (R46, R61). -/
theorem toNat_fieldF (op : Word) : (fieldF op).toNat = (hiByte op).toNat / 16 := by
  simp only [fieldF, hiByte, BitVec.extractLsb'_toNat, Nat.shiftRight_eq_div_pow]
  omega

/-- `X` is the low nibble of the byte at the lower address (R46, R61). -/
theorem val_fieldX (op : Word) : (fieldX op).val = (hiByte op).toNat % 16 := by
  simp only [fieldX, hiByte, BitVec.val_toFin, BitVec.extractLsb'_toNat]
  omega

end Sys2Proof

namespace Sys2Proof.Machine

/-- A fetch at 0x0FFE or below answers the opcode at `pc` (R81). -/
theorem fetch_eq_ok {s : State} (hpc : s.pc.toNat ≤ 0xFFE) :
    fetch s = .ok (s.mem.word s.pc.toNat) := by
  rcases fetch_cases s with ⟨_, hok⟩ | ⟨habove, _⟩
  · exact hok
  · omega

@[simp] theorem Memory.hiByte_word (m : Memory) (a : Nat) : hiByte (m.word a) = m.byte a :=
  hiByte_wordOfBytes _ _

@[simp] theorem Memory.loByte_word (m : Memory) (a : Nat) : loByte (m.word a) = m.byte (a + 1) :=
  loByte_wordOfBytes _ _

/-- Settles O7: the opcode fetched is the word at `pc`, the family and `X` are the nibbles of its
high byte, `KK` is its low byte, and these are the bytes at `pc` and at `pc + 1`. -/
theorem fetchIsBigEndian : Obligations.FetchIsBigEndian := by
  intro s hpc
  have hhi := s.mem.hiByte_word s.pc.toNat
  have hlo := s.mem.loByte_word s.pc.toNat
  exact ⟨s.mem.word s.pc.toNat, fetch_eq_ok hpc, toNat_wordOfBytes _ _, hhi, hlo,
    hhi ▸ toNat_fieldF _, hhi ▸ val_fieldX _, hlo⟩

end Sys2Proof.Machine
end

section
/-! Register/byte instructions: the opcode `6XKK`, and the write of a result to `V[X]`
(41_reg_imm_and_skip.md R90). -/

namespace Sys2Proof.Machine

open Sys2Proof.Claims

/-- The opcode of `6XKK` in the pattern of R65, and back. -/
theorem encodes_ldByte (x : RegIx) (kk : Byte) :
    Encodes (0x6#4 ++ (regBits x ++ kk)) (.ldByte x kk) := by
  have hdecode : decodeWord (encodeFXKK 0x6#4 x kk) = some (.ldByte x kk) := by
    simp only [decodeWord, fieldF_fxkk, fieldX_fxkk, fieldKK_fxkk]
  exact ⟨hdecode, rfl⟩

/-- An instruction that writes a result to `V[X]` completes and changes that register alone; `VF` is a
destination like any other. -/
theorem writeResult_spec (x : RegIx) (result : Byte) (s : State) :
    ∃ t, writeResult x result s = .next t ∧ t = { s with v := t.v } ∧
      ∀ r, t.reg r = if r = x then result else s.reg r :=
  ⟨s.setReg x result, rfl, s.setReg_frame x result, fun r => s.reg_setReg x r result⟩

/-- Settles O20: executing `6XKK` is the register write of `KK`, whose frame `writeResult_spec`
states. -/
theorem loadByteSetsRegister : Obligations.LoadByteSetsRegister := by
  intro x kk s
  exact ⟨encodes_ldByte x kk, writeResult_spec x kk s⟩

end Sys2Proof.Machine
end

section
/-! ALU instructions that compute a flag: the opcodes of family 8, the values of the carry and greater
flags, and the write of flag and result (42_alu.md R100, R105, R106). -/

namespace Sys2Proof.Machine

open Sys2Proof.Claims

/-! ## Opcodes -/

/-- A word of format `8XYN` is decoded by its family's decoder (R64). -/
theorem decodeWord_family8 (x y : RegIx) (n : BitVec 4) :
    decodeWord (encodeFXYN 0x8#4 x y n) = decode8 (encodeFXYN 0x8#4 x y n) := by
  simp only [decodeWord, fieldF_fxyn]

/-- The opcode of `8XY4` in the pattern of R65, and back. -/
theorem encodes_addReg (x y : RegIx) :
    Encodes (0x8#4 ++ (regBits x ++ (regBits y ++ 0x4#4))) (.addReg x y) := by
  have hdecode : decode8 (encodeFXYN 0x8#4 x y 0x4#4) = some (.addReg x y) := by
    simp only [decode8, fieldN_fxyn, fieldX_fxyn, fieldY_fxyn]
  exact ⟨(decodeWord_family8 x y _).trans hdecode, rfl⟩

/-- The opcode of `8XY5` in the pattern of R65, and back. -/
theorem encodes_subReg (x y : RegIx) :
    Encodes (0x8#4 ++ (regBits x ++ (regBits y ++ 0x5#4))) (.subReg x y) := by
  have hdecode : decode8 (encodeFXYN 0x8#4 x y 0x5#4) = some (.subReg x y) := by
    simp only [decode8, fieldN_fxyn, fieldX_fxyn, fieldY_fxyn]
  exact ⟨(decodeWord_family8 x y _).trans hdecode, rfl⟩

/-! ## Flags and results -/

/-- The flag of a condition is the whole byte 1 or 0 (R12). -/
theorem flagByte_decide (p : Prop) [Decidable p] : flagByte (decide p) = if p then 1 else 0 :=
  if_congr decide_eq_true_iff rfl rfl

/-- The carry is that of the untruncated sum (R105). -/
theorem carryFlag_eq (a b : Byte) : carryFlag a b = if 255 < a.toNat + b.toNat then 1 else 0 :=
  flagByte_decide _

/-- The comparison is strict: equal operands give 0 (R106). -/
theorem greaterFlag_eq (a b : Byte) : greaterFlag a b = if b.toNat < a.toNat then 1 else 0 :=
  flagByte_decide _

/-- The difference that SUB and SUBN store: `a - b` when `b ≤ a`, else `a - b + 256` (R106). -/
theorem toNat_difference (a b : Byte) :
    (BitVec.ofNat 8 (256 + a.toNat - b.toNat)).toNat =
      if b.toNat ≤ a.toNat then a.toNat - b.toNat else a.toNat + 256 - b.toNat := by
  have ha := a.isLt
  have hb := b.isLt
  rw [BitVec.toNat_ofNat]
  split <;> omega

/-- An instruction that writes a flag, then a result, completes: `V[X]` holds the result, `X = F`
included; VF holds the flag unless the result overwrote it; nothing else changes (R13, R100). -/
theorem writeFlagResult_spec (x : RegIx) (flag result : Byte) (s : State) :
    ∃ t, writeFlagResult x flag result s = .next t ∧ t = { s with v := t.v } ∧
      t.reg x = result ∧ (x ≠ 15 → t.reg 15 = flag) ∧
      ∀ r, r ≠ x → r ≠ 15 → t.reg r = s.reg r := by
  refine ⟨(s.setReg vf flag).setReg x result, rfl, rfl, State.reg_setReg_self .., ?_, ?_⟩
  · intro hx
    rw [State.reg_setReg_ne _ _ _ _ hx.symm, State.reg_setReg_self]
  · intro r hrx hrf
    rw [State.reg_setReg_ne _ _ _ _ hrx, State.reg_setReg_ne _ _ _ _ hrf]

/-! ## The obligations -/

/-- Settles O25: `8XY4` is the write of carry and sum, both taken from the old state. -/
theorem addRegistersSetsCarryThenSum : Obligations.AddRegistersSetsCarryThenSum := by
  intro x y s
  obtain ⟨t, hnext, hframe, hsum, hcarry, hrest⟩ := writeFlagResult_spec x
    (carryFlag (s.reg x) (s.reg y)) (BitVec.ofNat 8 ((s.reg x).toNat + (s.reg y).toNat)) s
  refine ⟨encodes_addReg x y, t, hnext, hframe, ?_, fun hx => ?_, hrest⟩
  · rw [hsum, BitVec.toNat_ofNat]
  · rw [hcarry hx, carryFlag_eq]

/-- Settles O26: `8XY5` is the write of greater flag and difference, both taken from the old state. -/
theorem subtractSetsStrictGreaterFlag : Obligations.SubtractSetsStrictGreaterFlag := by
  intro x y s
  obtain ⟨t, hnext, hframe, hdifference, hgreater, hrest⟩ := writeFlagResult_spec x
    (greaterFlag (s.reg x) (s.reg y)) (BitVec.ofNat 8 (256 + (s.reg x).toNat - (s.reg y).toNat)) s
  refine ⟨encodes_subReg x y, t, hnext, hframe, ?_, fun hx => ?_, hrest⟩
  · rw [hdifference, toNat_difference]
  · rw [hgreater hx, greaterFlag_eq]

end Sys2Proof.Machine
end

section
/-! Control transfer: the opcode `1NNN`, the value of an address operand as a word, and the jump
(43_control.md R120). -/

namespace Sys2Proof.Machine

open Sys2Proof.Claims

/-- The opcode of `1NNN` in the pattern of R65, and back. -/
theorem encodes_jp (nnn : Addr) : Encodes (0x1#4 ++ nnn) (.jp nnn) := by
  have hdecode : decodeWord (encodeFNNN 0x1#4 nnn) = some (.jp nnn) := by
    simp only [decodeWord, fieldF_fnnn, fieldNNN_fnnn]
  exact ⟨hdecode, rfl⟩

/-- An address operand is zero-extended: the word has its value (R120). -/
@[simp] theorem toNat_addrWord (nnn : Addr) : (addrWord nnn).toNat = nnn.toNat :=
  BitVec.toNat_setWidth_of_le (by decide)

/-- Executing `1NNN` completes in every state, at any target, and writes `pc` alone. -/
theorem exec_jp (nnn : Addr) (s : State) :
    exec (.jp nnn) s = .next { s with pc := addrWord nnn } := rfl

/-- Settles O29: executing `1NNN` writes the operand, as a word of the same value, to `pc` alone. -/
theorem jumpSetsPc : Obligations.JumpSetsPc := by
  intro nnn s
  exact ⟨encodes_jp nnn, { s with pc := addrWord nnn }, exec_jp nnn s, rfl, toNat_addrWord nnn⟩

end Sys2Proof.Machine
end

section
/-! Index register: the opcodes `ANNN` and `FX29`, and the font address of a register's low nibble
(44_index_memory.md R130, R132). -/

namespace Sys2Proof.Machine

open Sys2Proof.Claims

/-! ## Opcodes -/

/-- The opcode of `ANNN` in the pattern of R65, and back. -/
theorem encodes_ldI (nnn : Addr) : Encodes (0xA#4 ++ nnn) (.ldI nnn) := by
  have hdecode : decodeWord (encodeFNNN 0xA#4 nnn) = some (.ldI nnn) := by
    simp only [decodeWord, fieldF_fnnn, fieldNNN_fnnn]
  exact ⟨hdecode, rfl⟩

/-- A word of family F is decoded by its family's decoder (R64). -/
theorem decodeWord_familyF (x : RegIx) (kk : Byte) :
    decodeWord (encodeFXKK 0xF#4 x kk) = decodeF (encodeFXKK 0xF#4 x kk) := by
  simp only [decodeWord, fieldF_fxkk]

/-- The opcode of `FX29` in the pattern of R65, and back. -/
theorem encodes_ldF (x : RegIx) : Encodes (0xF#4 ++ (regBits x ++ 0x29#8)) (.ldF x) := by
  have hdecode : decodeF (encodeFXKK 0xF#4 x 0x29#8) = some (.ldF x) := by
    simp only [decodeF, fieldKK_fxkk, fieldX_fxkk]
  exact ⟨(decodeWord_familyF x _).trans hdecode, rfl⟩

/-! ## Values and next states -/

/-- The mask of R132 takes the digit that `FX29` computes by a remainder. -/
theorem toNat_and_lowNibble (a : Byte) : (a &&& 0x0F#8).toNat = a.toNat % 16 :=
  Nat.and_two_pow_sub_one_eq_mod a.toNat 4

/-- The font address of a digit fits in `I`: the word has its value (R132). -/
theorem toNat_fontAddress {digit : Nat} (hdigit : digit < 16) :
    (BitVec.ofNat 16 (fontBase + 5 * digit)).toNat = 0x050 + 5 * digit := by
  rw [BitVec.toNat_ofNat, fontBase_eq]
  omega

/-- Executing `ANNN` completes in every state and writes `I` alone. -/
theorem exec_ldI (nnn : Addr) (s : State) :
    exec (.ldI nnn) s = .next { s with i := addrWord nnn } := rfl

/-- Executing `FX29` completes in every state, whatever the high nibble of `V[X]`, and writes `I`
alone. -/
theorem exec_ldF (x : RegIx) (s : State) :
    exec (.ldF x) s =
      .next { s with i := BitVec.ofNat 16 (fontBase + 5 * ((s.reg x).toNat % 16)) } := rfl

/-! ## The obligations -/

/-- Settles O35: executing `ANNN` writes the operand, as a word of the same value, to `I` alone. -/
theorem loadIndexSetsI : Obligations.LoadIndexSetsI := by
  intro nnn s
  exact ⟨encodes_ldI nnn, { s with i := addrWord nnn }, exec_ldI nnn s, rfl, toNat_addrWord nnn⟩

/-- Settles O37: the digit is at most 15, so the font address is at most that of glyph F. -/
theorem fontAddressOfLowNibble : Obligations.FontAddressOfLowNibble := by
  intro x s
  have hdigit : (s.reg x).toNat % 16 < 16 := Nat.mod_lt _ (by decide)
  refine ⟨encodes_ldF x, _, exec_ldF x s, rfl, ?_, ?_⟩
  · rw [toNat_and_lowNibble]
    exact toNat_fontAddress hdigit
  · rw [toNat_fontAddress hdigit]
    omega

end Sys2Proof.Machine
end

section
/-! Display: the opcode `00E0` and the clear of the framebuffer (45_display.md R140). -/

namespace Sys2Proof.Machine

open Sys2Proof.Claims

/-- The one opcode of `00E0` in the table of R65, and back. -/
theorem encodes_cls : Encodes 0x00E0#16 .cls := by
  have hdecode : decodeWord 0x00E0#16 = some .cls := rfl
  exact ⟨hdecode, rfl⟩

/-- Executing `00E0` completes in every state and writes the framebuffer alone. -/
theorem exec_cls (s : State) : exec .cls s = .next { s with fb := Framebuffer.off } := rfl

/-- Settles O43: the framebuffer that `00E0` writes is the cleared one, every pixel of which is off. -/
theorem clearTurnsEveryPixelOff : Obligations.ClearTurnsEveryPixelOff := by
  intro s
  exact ⟨encodes_cls, { s with fb := Framebuffer.off }, exec_cls s, rfl, Framebuffer.pixel_off⟩

end Sys2Proof.Machine
end

section
/-! A cycle whose opcode stands at `pc`: which instruction it runs, and the tick that ends it
(40_step_cycle.md R80 to R84). -/

namespace Sys2Proof.Machine

open Sys2Proof.Claims

/-- The tick of R84 is subtraction that stops at 0. -/
theorem tickTimer_eq_ticked (t : Byte) : tickTimer t = ticked t := by
  rw [ticked, ← tickTimer_toNat, BitVec.ofNat_toNat, BitVec.setWidth_eq]

/-- The word whose bytes stand at `pc` is the opcode that fetch reads (R46). -/
theorem word_of_fetchedWord {s : State} {op : Word} (hop : FetchedWord s op) :
    s.mem.word s.pc.toNat = op := by
  obtain ⟨_, hhi, hlo⟩ := hop
  rw [Memory.word, hhi, hlo]
  exact wordOfBytes_hi_lo op

/-- When an instruction's opcode stands at `pc` and its rule completes, the cycle completes: its next
state is the rule's, with both timers ticked (R80, R84). -/
theorem step_of_fetchedWord {s t : State} {op : Word} {i : Instr} (hop : FetchedWord s op)
    (hencodes : Encodes op i) (hexec : exec i s.advance = .next t) :
    step s = .next { t with dt := ticked t.dt, st := ticked t.st } := by
  have hdecode : decodeWord (s.mem.word s.pc.toNat) = some i :=
    (word_of_fetchedWord hop).symm ▸ hencodes.1
  rw [step_of_decode hop.1 hdecode, hexec, finishCycle, State.tick, tickTimer_eq_ticked,
    tickTimer_eq_ticked]

end Sys2Proof.Machine
end

section
/-! Keys and timers: the opcodes `FX07`, `FX0A`, `FX15` and `FX18`, what each does in its own rule, and
what its whole cycle leaves (46_keys_timers_random.md R152 to R155). -/

namespace Sys2Proof.Machine

open Sys2Proof.Claims

/-! ## Opcodes -/

/-- A word of family F is the opcode of the instruction its family's decoder answers, when that
instruction encodes to it. -/
theorem encodes_of_decodeF {x : RegIx} {kk : Byte} {i : Instr}
    (hdecode : decodeF (encodeFXKK 0xF#4 x kk) = some i)
    (hencode : encode i = encodeFXKK 0xF#4 x kk) : Encodes (0xF#4 ++ (regBits x ++ kk)) i :=
  ⟨(decodeWord_familyF x kk).trans hdecode, hencode⟩

/-- The opcode of `FX07` in the pattern of R65, and back. -/
theorem encodes_ldVxDT (x : RegIx) : Encodes (0xF#4 ++ (regBits x ++ 0x07#8)) (.ldVxDT x) :=
  encodes_of_decodeF (by simp only [decodeF, fieldKK_fxkk, fieldX_fxkk]) rfl

/-- The opcode of `FX0A` in the pattern of R65, and back. -/
theorem encodes_ldVxK (x : RegIx) : Encodes (0xF#4 ++ (regBits x ++ 0x0A#8)) (.ldVxK x) :=
  encodes_of_decodeF (by simp only [decodeF, fieldKK_fxkk, fieldX_fxkk]) rfl

/-- The opcode of `FX15` in the pattern of R65, and back. -/
theorem encodes_ldDT (x : RegIx) : Encodes (0xF#4 ++ (regBits x ++ 0x15#8)) (.ldDT x) :=
  encodes_of_decodeF (by simp only [decodeF, fieldKK_fxkk, fieldX_fxkk]) rfl

/-- The opcode of `FX18` in the pattern of R65, and back. -/
theorem encodes_ldST (x : RegIx) : Encodes (0xF#4 ++ (regBits x ++ 0x18#8)) (.ldST x) :=
  encodes_of_decodeF (by simp only [decodeF, fieldKK_fxkk, fieldX_fxkk]) rfl

/-! ## Which key is taken -/

/-- A pressed key below which no key is pressed is the one that is found (R152). -/
theorem lowestPressed_eq_some {keys : Keys} {k : Fin 16} (hpressed : keys.get k = true)
    (hleast : ∀ j : Fin 16, j < k → keys.get j = false) : lowestPressed keys = some k := by
  rcases lowestPressed_cases keys with ⟨hnone, _⟩ | ⟨k', hpressed', hleast', hfound⟩
  · simp [hnone k] at hpressed
  · have hle : k ≤ k' := not_lt.mp fun hlt => by simp [hleast k' hlt] at hpressed'
    have hge : k' ≤ k := not_lt.mp fun hlt => by simp [hleast' k hlt] at hpressed
    rw [hfound, le_antisymm hge hle]

/-- With no key pressed none is found (R152). -/
theorem lowestPressed_eq_none {keys : Keys} (hnone : ∀ k : Fin 16, keys.get k = false) :
    lowestPressed keys = none := by
  rcases lowestPressed_cases keys with ⟨_, hfound⟩ | ⟨k, hpressed, _⟩
  · exact hfound
  · simp [hnone k] at hpressed

/-! ## Next states -/

/-- Executing `FX0A` with a key pressed is the register write of the least one's number. -/
theorem exec_ldVxK_of_pressed (x : RegIx) {s : State} {k : Fin 16}
    (hfound : lowestPressed s.keys = some k) :
    exec (.ldVxK x) s = writeResult x (BitVec.ofNat 8 k.val) s := by
  rw [exec, execLdVxK, hfound]

/-- Executing `FX0A` with no key pressed takes back the advance of `pc` and writes nothing else. -/
theorem exec_ldVxK_of_none (x : RegIx) {s : State} (hnone : ∀ k : Fin 16, s.keys.get k = false) :
    exec (.ldVxK x) s = .next { s with pc := s.pc - 2 } := by
  rw [exec, execLdVxK, lowestPressed_eq_none hnone]

/-- Executing `FX07` is the register write of `DT`. -/
theorem exec_ldVxDT (x : RegIx) (s : State) : exec (.ldVxDT x) s = writeResult x s.dt s := rfl

/-- Executing `FX15` completes in every state and writes `DT` alone. -/
theorem exec_ldDT (x : RegIx) (s : State) : exec (.ldDT x) s = .next { s with dt := s.reg x } := rfl

/-- Executing `FX18` completes in every state and writes `ST` alone. -/
theorem exec_ldST (x : RegIx) (s : State) : exec (.ldST x) s = .next { s with st := s.reg x } := rfl

/-- A whole cycle of `FX0A` with no key pressed: the rule takes `pc` back to where fetch advanced it
from, so only the timers change (R152). -/
theorem step_ldVxK_of_none {x : RegIx} {s : State}
    (hop : FetchedWord s (0xF#4 ++ (regBits x ++ 0x0A#8)))
    (hnone : ∀ k : Fin 16, s.keys.get k = false) :
    step s = .next { s with dt := ticked s.dt, st := ticked s.st } := by
  have hpc : s.advance.pc - 2 = s.pc := BitVec.add_sub_cancel s.pc 2
  rw [step_of_fetchedWord hop (encodes_ldVxK x) (exec_ldVxK_of_none x (s := s.advance) hnone), hpc]
  rfl

/-! ## The obligations -/

/-- Settles O49: with a least pressed key `FX0A` is the register write of its number, which fits in a
byte; with none pressed its rewind of `pc` cancels the advance that fetch made. -/
theorem keyWaitTakesLowestKeyOrRepeats : Obligations.KeyWaitTakesLowestKeyOrRepeats := by
  intro x s
  refine ⟨encodes_ldVxK x, fun k hpressed hleast => ?_, fun hnone =>
    ⟨exec_ldVxK_of_none x hnone, fun hop => step_ldVxK_of_none hop hnone⟩⟩
  obtain ⟨t, hnext, hframe, hreg⟩ := writeResult_spec x (BitVec.ofNat 8 k.val) s
  have hfound := lowestPressed_eq_some hpressed hleast
  refine ⟨t, (exec_ldVxK_of_pressed x hfound).trans hnext, hframe, ?_, fun r hr => ?_⟩
  · rw [hreg, if_pos rfl, BitVec.toNat_ofNat]
    omega
  · rw [hreg, if_neg hr]

/-- Settles O50: `FX07` is the register write of `DT`, and the tick that follows it in the cycle
changes `DT` but no register. -/
theorem readDelayTimerBeforeTick : Obligations.ReadDelayTimerBeforeTick := by
  intro x s
  refine ⟨encodes_ldVxDT x, writeResult_spec x s.dt s, fun hop => ?_⟩
  have hstep := step_of_fetchedWord hop (encodes_ldVxDT x) (exec_ldVxDT x s.advance)
  exact ⟨_, hstep, State.reg_setReg_self s.advance x s.dt, rfl⟩

/-- Settles O51: the next states of `exec_ldDT` and `exec_ldST`, and the tick of the cycle applied to
the value each has just written. -/
theorem timerWriteIsTickedInTheSameCycle : Obligations.TimerWriteIsTickedInTheSameCycle := by
  intro x s
  exact ⟨encodes_ldDT x, encodes_ldST x, exec_ldDT x s, exec_ldST x s,
    fun hop => step_of_fetchedWord hop (encodes_ldDT x) (exec_ldDT x s.advance),
    fun hop => step_of_fetchedWord hop (encodes_ldST x) (exec_ldST x s.advance)⟩

end Sys2Proof.Machine
end

section
/-! Faults: the records an instruction's rule can raise and where a cycle's record says it began
(60_exceptions.md R170, R171), and the one cause that only `load` raises (R177). -/

namespace Sys2Proof.Machine

/-- The record of a fault in the execute phase is of cause 2, 3, 4 or 5, and holds the instruction's
own opcode and the address before the advance (R86, R171). -/
theorem exec_fault_cases {i : Instr} {s : State} {f : Fault} (h : exec i s = .fault f) :
    f = .stackOverflow (encode i) (s.pc - 2) s.sp.val ∨
    f = .stackUnderflow (encode i) (s.pc - 2) s.sp.val ∨
    (∃ addr kind, f = .memoryOutOfRange (some (encode i)) (s.pc - 2) addr kind) ∨
    (∃ value, f = .keyIndexOutOfRange (encode i) (s.pc - 2) value) := by
  cases i with
  | call nnn =>
    rw [exec, execCall] at h
    split at h
    · cases h
    · cases h; exact .inl rfl
  | ret =>
    rw [exec, execRet] at h
    split at h
    · cases h
    · cases h; exact .inr (.inl rfl)
  | drw x y n | ldB x | stRegs x | ldRegs x =>
    simp only [exec, execDrw, execLdB, execStRegs, execLdRegs] at h
    split at h
    · cases h; exact .inr (.inr (.inl ⟨_, _, rfl⟩))
    · cases h
  | skp x | sknp x =>
    simp only [exec, execSkp, execSknp] at h
    split at h
    · cases h
    · cases h; exact .inr (.inr (.inr ⟨_, rfl⟩))
  | ldVxK x =>
    rw [exec, execLdVxK] at h
    split at h <;> cases h
  -- The other 25 are a next state whatever the state is.
  | _ => cases h

/-- The record of a fault in a cycle holds the address the cycle began at, whichever phase raised it
(R170). -/
theorem step_fault_pcFetch {s : State} {f : Fault} (h : step s = .fault f) :
    f.pcFetch = some s.pc := by
  rcases step_fault_cases h with ⟨_, rfl⟩ | ⟨_, _, rfl⟩ | ⟨_, i, _, hexec⟩
  · rfl
  · rfl
  · have hpc : s.advance.pc - 2 = s.pc := BitVec.add_sub_cancel s.pc 2
    rcases exec_fault_cases hexec with rfl | rfl | ⟨_, _, rfl⟩ | ⟨_, rfl⟩ <;>
      exact congrArg some hpc

/-- Loading an image that does not fit above 0x200 answers its length and no state (R202). -/
theorem load_of_oversize {bytes : List Byte} (hlen : maxRom < bytes.length) (s : State) :
    load bytes s = .fault (.romTooLarge bytes.length) :=
  if_neg (not_le.mpr hlen)

/-- Settles O57: the size check of `load` fails, and a cycle's record holds an address of fetch, which
the record of a rejected `load` does not. -/
theorem oversizeImageIsRejected : Obligations.OversizeImageIsRejected := by
  refine ⟨fun _ s hlen => load_of_oversize hlen s, fun s n hstep => ?_⟩
  have hpcFetch : (Fault.romTooLarge n).pcFetch = some s.pc := step_fault_pcFetch hstep
  cases hpcFetch

end Sys2Proof.Machine
end

section
/-! Encoder and decoder are inverse: every well-formed instruction's opcode decodes to it, and every
word that decodes is the opcode of its instruction (30_encoding.md sections 2 and 4). -/

namespace Sys2Proof

/-! ## Decoding an opcode -/

/-- An opcode decodes to its instruction: the family selects the decoder, the selector the row, and
the operands are the fields they were encoded in. -/
theorem decodeWord_encode {i : Instr} (hwf : i.WellFormed = true) :
    decodeWord (encode i) = some i := by
  cases i with
  | cls | ret => rfl
  | jp nnn | call nnn | ldI nnn | jpV0 nnn =>
    simp only [encode, decodeWord, fieldF_fnnn, fieldNNN_fnnn]
  | seByte x kk | sneByte x kk | ldByte x kk | addByte x kk | rnd x kk =>
    simp only [encode, decodeWord, fieldF_fxkk, fieldX_fxkk, fieldKK_fxkk]
  | seReg x y | sneReg x y =>
    simp only [encode, decodeWord, decode5, decode9, fieldF_fxyn, fieldX_fxyn, fieldY_fxyn,
      fieldN_fxyn]
  | ldReg x y | orReg x y | andReg x y | xorReg x y | addReg x y | subReg x y | shr x y
  | subnReg x y | shl x y =>
    simp only [encode, decodeWord, decode8, fieldF_fxyn, fieldX_fxyn, fieldY_fxyn, fieldN_fxyn]
  | drw x y n =>
    have hn : n ≤ 15 := of_decide_eq_true hwf
    have hfield : (BitVec.ofNat 4 n).toNat = n := by rw [BitVec.toNat_ofNat]; omega
    simp only [encode, decodeWord, fieldF_fxyn, fieldX_fxyn, fieldY_fxyn, fieldN_fxyn, hfield]
  | skp x | sknp x =>
    simp only [encode, decodeWord, decodeE, fieldF_fxkk, fieldX_fxkk, fieldKK_fxkk]
  | ldVxDT x | ldVxK x | ldDT x | ldST x | addI x | ldF x | ldB x | stRegs x | ldRegs x =>
    simp only [encode, decodeWord, decodeF, fieldF_fxkk, fieldX_fxkk, fieldKK_fxkk]

/-- Settles O2: `decodeWord_encode`, family by family. -/
theorem decodeOfEncodeIsIdentity : Obligations.DecodeOfEncodeIsIdentity :=
  fun _ hwf => decodeWord_encode hwf

/-! ## Encoding what was decoded -/

/-- A word of format `FNNN` is its family and its address field. -/
theorem encodeFNNN_of_fields {op : Word} {f : BitVec 4} {nnn : Addr} (hf : fieldF op = f)
    (hnnn : fieldNNN op = nnn) : encodeFNNN f nnn = op := hf ▸ hnnn ▸ encodeFNNN_fields op

/-- A word of format `FXKK` is its family, its register field and its low byte. -/
theorem encodeFXKK_of_fields {op : Word} {f : BitVec 4} {kk : Byte} (hf : fieldF op = f)
    (hkk : fieldKK op = kk) : encodeFXKK f (fieldX op) kk = op := hf ▸ hkk ▸ encodeFXKK_fields op

/-- A word of format `FXYN` is its family, its register fields and its low nibble. -/
theorem encodeFXYN_of_fields {op : Word} {f n : BitVec 4} (hf : fieldF op = f)
    (hn : fieldN op = n) : encodeFXYN f (fieldX op) (fieldY op) n = op :=
  hf ▸ hn ▸ encodeFXYN_fields op

/-- A word of family 0 that decodes is one of the two opcodes of the family (R67). -/
theorem encode_of_decode0 {op : Word} {i : Instr} (hf : fieldF op = 0x0#4)
    (h : decode0 op = some i) : encode i = op ∧ i.WellFormed = true := by
  unfold decode0 at h
  split at h
  case h_3 => cases h
  all_goals next hnnn => cases h; exact ⟨encodeFNNN_of_fields hf hnnn, rfl⟩

/-- A word of family 5 that decodes has the low nibble 0 (R68). -/
theorem encode_of_decode5 {op : Word} {i : Instr} (hf : fieldF op = 0x5#4)
    (h : decode5 op = some i) : encode i = op ∧ i.WellFormed = true := by
  unfold decode5 at h
  split at h
  next hn => cases h; exact ⟨encodeFXYN_of_fields hf hn, rfl⟩
  next => cases h

/-- A word of family 8 that decodes has the low nibble of its instruction's selector (R69). -/
theorem encode_of_decode8 {op : Word} {i : Instr} (hf : fieldF op = 0x8#4)
    (h : decode8 op = some i) : encode i = op ∧ i.WellFormed = true := by
  unfold decode8 at h
  split at h
  case h_10 => cases h
  all_goals next hn => cases h; exact ⟨encodeFXYN_of_fields hf hn, rfl⟩

/-- A word of family 9 that decodes has the low nibble 0 (R68). -/
theorem encode_of_decode9 {op : Word} {i : Instr} (hf : fieldF op = 0x9#4)
    (h : decode9 op = some i) : encode i = op ∧ i.WellFormed = true := by
  unfold decode9 at h
  split at h
  next hn => cases h; exact ⟨encodeFXYN_of_fields hf hn, rfl⟩
  next => cases h

/-- A word of family E that decodes has the low byte of its instruction's selector (R69). -/
theorem encode_of_decodeE {op : Word} {i : Instr} (hf : fieldF op = 0xE#4)
    (h : decodeE op = some i) : encode i = op ∧ i.WellFormed = true := by
  unfold decodeE at h
  split at h
  case h_3 => cases h
  all_goals next hkk => cases h; exact ⟨encodeFXKK_of_fields hf hkk, rfl⟩

/-- A word of family F that decodes has the low byte of its instruction's selector (R69). -/
theorem encode_of_decodeF {op : Word} {i : Instr} (hf : fieldF op = 0xF#4)
    (h : decodeF op = some i) : encode i = op ∧ i.WellFormed = true := by
  unfold decodeF at h
  split at h
  case h_10 => cases h
  all_goals next hkk => cases h; exact ⟨encodeFXKK_of_fields hf hkk, rfl⟩

/-- A word of family D is the opcode of its drawing instruction, whose height is the value of the
low nibble (R63). -/
theorem encode_drw_fields {op : Word} (hf : fieldF op = 0xD#4) :
    encode (.drw (fieldX op) (fieldY op) (fieldN op).toNat) = op ∧
      Instr.WellFormed (.drw (fieldX op) (fieldY op) (fieldN op).toNat) = true := by
  have hheight : (fieldN op).toNat ≤ 15 := Nat.le_of_lt_succ (fieldN op).isLt
  have hn : fieldN op = BitVec.ofNat 4 (fieldN op).toNat := by
    rw [BitVec.ofNat_toNat, BitVec.setWidth_eq]
  exact ⟨encodeFXYN_of_fields hf hn, decide_eq_true hheight⟩

/-- A word that decodes is the opcode of its instruction. -/
theorem encode_of_decodeWord {op : Word} {i : Instr} (h : decodeWord op = some i) :
    encode i = op ∧ i.WellFormed = true := by
  unfold decodeWord at h
  split at h
  -- Families 1, 2, A and B, then 3, 4, 6, 7 and C, are not decoded further.
  case h_2 hf | h_3 hf | h_11 hf | h_12 hf => cases h; exact ⟨encodeFNNN_of_fields hf rfl, rfl⟩
  case h_4 hf | h_5 hf | h_7 hf | h_8 hf | h_13 hf =>
    cases h; exact ⟨encodeFXKK_of_fields hf rfl, rfl⟩
  case h_1 hf => exact encode_of_decode0 hf h
  case h_6 hf => exact encode_of_decode5 hf h
  case h_9 hf => exact encode_of_decode8 hf h
  case h_10 hf => exact encode_of_decode9 hf h
  case h_14 hf => cases h; exact encode_drw_fields hf
  case h_15 hf => exact encode_of_decodeE hf h
  case h_16 hf => exact encode_of_decodeF hf h
  case h_17 => cases h

/-- Settles O3: `encode_of_decodeWord`, family by family. -/
theorem encodeOfDecodeIsIdentity : Obligations.EncodeOfDecodeIsIdentity :=
  fun _ _ h => encode_of_decodeWord h

/-- A well-formed instruction's own opcode, in whichever pattern it is written, decodes to it. -/
theorem encodes_of_wellFormed {op : Word} {i : Instr} (hwf : i.WellFormed = true)
    (hop : encode i = op) : Claims.Encodes op i := ⟨hop ▸ decodeWord_encode hwf, hop⟩

end Sys2Proof
end

section
/-! The decoder against the opcode map of 34 masked rows, and the words that are no instruction
(30_encoding.md R64 to R66). -/

namespace Sys2Proof

open Sys2Proof.Machine Sys2Proof.Claims Sys2Proof.Laws.RowOfEncoding

/-! ## At most one row selects a word -/

/-- A word that two rows select agrees with both codes where both masks look. -/
theorem Row.code_and_mask_of_selects {r r' : Row} {op : Word} (h : r.selects op = true)
    (h' : r'.selects op = true) : r.code &&& r'.mask = r'.code &&& r.mask := by
  rw [← eq_of_beq h, ← eq_of_beq h', BitVec.and_assoc, BitVec.and_assoc,
    BitVec.and_comm r.mask]

/-- Any two rows of the map differ in a bit that both their masks look at (R65). -/
theorem opcodeTable_pairwise :
    opcodeTable.Pairwise fun r r' => r.code &&& r'.mask ≠ r'.code &&& r.mask := by
  decide

/-- At most one row of the map selects a word. -/
theorem length_filter_selects_le_one (op : Word) :
    (opcodeTable.filter (·.selects op)).length ≤ 1 := by
  have hpairwise := opcodeTable_pairwise.filter (·.selects op)
  have hselects : ∀ r ∈ opcodeTable.filter (·.selects op), r.selects op = true :=
    fun r hr => (List.mem_filter.mp hr).2
  generalize opcodeTable.filter (·.selects op) = rows at hpairwise hselects
  match rows with
  | [] | [_] => simp
  | r :: r' :: _ =>
    exact absurd (Row.code_and_mask_of_selects (hselects r (by simp)) (hselects r' (by simp)))
      (List.rel_of_pairwise_cons hpairwise (by simp))

/-! ## The row that selects a word decodes it -/

/-- The mask F000 keeps the family. -/
theorem fieldF_and_F000 (op : Word) : fieldF (op &&& 0xF000#16) = fieldF op := by
  rw [← encodeFXYN_fields op, mask_F000_fxyn, fxyn_and, fieldF_fxyn, fieldF_fxyn]
  exact BitVec.and_allOnes

/-- The mask F00F keeps the family and the low nibble. -/
theorem fields_and_F00F (op : Word) :
    fieldF (op &&& 0xF00F#16) = fieldF op ∧ fieldN (op &&& 0xF00F#16) = fieldN op := by
  rw [← encodeFXYN_fields op, mask_F00F, fxyn_and, fieldF_fxyn, fieldF_fxyn,
    fieldN_fxyn, fieldN_fxyn]
  exact ⟨BitVec.and_allOnes, BitVec.and_allOnes⟩

/-- The mask F0FF keeps the family and the low byte. -/
theorem fields_and_F0FF (op : Word) :
    fieldF (op &&& 0xF0FF#16) = fieldF op ∧ fieldKK (op &&& 0xF0FF#16) = fieldKK op := by
  rw [← encodeFXKK_fields op, mask_F0FF, fxkk_and, fieldF_fxkk, fieldF_fxkk,
    fieldKK_fxkk, fieldKK_fxkk]
  exact ⟨BitVec.and_allOnes, BitVec.and_allOnes⟩

/-- A word that one of the rows 1 to 9 selects decodes to what the row builds from it. -/
theorem decodeWord_of_mem_opcodeRows1 {op : Word} {r : Row} (hr : r ∈ opcodeRows1)
    (h : r.selects op = true) : decodeWord op = some (r.build op) := by
  have hop := eq_of_beq h
  fin_cases hr
  -- `5XY0`, row 7, has a selector, `00E0` and `00EE` are one word each, the rest are whole families.
  on_goal 7 =>
    obtain ⟨hf, hn⟩ := fields_and_F00F op
    rw [hop] at hf hn
    simp only [decodeWord, decode5, ← hf, ← hn]
    rfl
  iterate 2
    · have hcode := BitVec.and_allOnes.symm.trans hop
      rw [hcode]
      rfl
  all_goals
    have hf := fieldF_and_F000 op
    rw [hop] at hf
    simp only [decodeWord, ← hf]
    rfl

/-- A word that one of the rows 10 to 19 selects decodes to what the row builds from it. -/
theorem decodeWord_of_mem_opcodeRows2 {op : Word} {r : Row} (hr : r ∈ opcodeRows2)
    (h : r.selects op = true) : decodeWord op = some (r.build op) := by
  have hop := eq_of_beq h
  fin_cases hr
  all_goals
    obtain ⟨hf, hn⟩ := fields_and_F00F op
    rw [hop] at hf hn
    simp only [decodeWord, decode8, decode9, ← hf, ← hn]
    rfl

/-- A word that one of the rows 20 to 34 selects decodes to what the row builds from it. -/
theorem decodeWord_of_mem_opcodeRows3 {op : Word} {r : Row} (hr : r ∈ opcodeRows3)
    (h : r.selects op = true) : decodeWord op = some (r.build op) := by
  have hop := eq_of_beq h
  fin_cases hr
  -- Families A to D are rows of their own; the rows of E and F have a selector.
  iterate 4
    · have hf := fieldF_and_F000 op
      rw [hop] at hf
      simp only [decodeWord, ← hf]
      rfl
  all_goals
    obtain ⟨hf, hkk⟩ := fields_and_F0FF op
    rw [hop] at hf hkk
    simp only [decodeWord, decodeE, decodeF, ← hf, ← hkk]
    rfl

/-- A word that a row of the map selects decodes to what the row builds from it. -/
theorem decodeWord_of_selects {op : Word} {r : Row} (hr : r ∈ opcodeTable)
    (h : r.selects op = true) : decodeWord op = some (r.build op) := by
  rcases List.mem_append.mp hr with hr | hr
  · rcases List.mem_append.mp hr with hr | hr
    · exact decodeWord_of_mem_opcodeRows1 hr h
    · exact decodeWord_of_mem_opcodeRows2 hr h
  · exact decodeWord_of_mem_opcodeRows3 hr h

/-! ## A word that decodes is selected -/

/-- The opcode of every instruction is selected by the instruction's own row. -/
theorem rowOfEncoding_statement : ∀ i, Statement i
  | .cls => cls | .ret => ret | .jp _ => jp _ | .call _ => call _ | .seByte _ _ => seByte _ _
  | .sneByte _ _ => sneByte _ _ | .seReg _ _ => seReg _ _ | .ldByte _ _ => ldByte _ _
  | .addByte _ _ => addByte _ _ | .ldReg _ _ => ldReg _ _ | .orReg _ _ => orReg _ _
  | .andReg _ _ => andReg _ _ | .xorReg _ _ => xorReg _ _ | .addReg _ _ => addReg _ _
  | .subReg _ _ => subReg _ _ | .shr _ _ => shr _ _ | .subnReg _ _ => subnReg _ _
  | .shl _ _ => shl _ _ | .sneReg _ _ => sneReg _ _ | .ldI _ => ldI _ | .jpV0 _ => jpV0 _
  | .rnd _ _ => rnd _ _ | .drw _ _ _ => drw _ _ _ | .skp _ => skp _ | .sknp _ => sknp _
  | .ldVxDT _ => ldVxDT _ | .ldVxK _ => ldVxK _ | .ldDT _ => ldDT _ | .ldST _ => ldST _
  | .addI _ => addI _ | .ldF _ => ldF _ | .ldB _ => ldB _ | .stRegs _ => stRegs _
  | .ldRegs _ => ldRegs _

/-- Some row of the map selects the opcode of an instruction. -/
theorem exists_row_selects_encode (i : Instr) : ∃ r ∈ opcodeTable, r.selects (encode i) = true := by
  obtain ⟨r, hrow, hselects⟩ := Option.map_eq_some_iff.mp (rowOfEncoding_statement i)
  exact ⟨r, List.mem_of_getElem? hrow, hselects⟩

/-- A word that no row of the map selects does not decode. -/
theorem decodeWord_eq_none_of_not_selects {op : Word}
    (h : ∀ r ∈ opcodeTable, ¬ r.selects op = true) : decodeWord op = none := by
  rw [Option.eq_none_iff_forall_ne_some]
  intro i hdecode
  obtain ⟨r, hr, hselects⟩ := exists_row_selects_encode i
  exact h r hr ((encode_of_decodeWord hdecode).1 ▸ hselects)

/-- Settles O4: a word that a row selects decodes by it, a word that none selects does not decode,
and no two rows select the same word. -/
theorem decoderAgreesWithOpcodeMap : Obligations.DecoderAgreesWithOpcodeMap := by
  refine ⟨rfl, fun op => ⟨?_, length_filter_selects_le_one op⟩⟩
  cases hfind : opcodeTable.find? (·.selects op) with
  | some r =>
    exact decodeWord_of_selects (List.mem_of_find?_eq_some hfind)
      (List.find?_some (p := fun r : Row => r.selects op) hfind)
  | none => exact decodeWord_eq_none_of_not_selects (List.find?_eq_none.mp hfind)

/-! ## The words that are no instruction -/

/-- Family 0 rejects every address but its two selectors (R67). -/
theorem decode0_eq_none_iff (op : Word) :
    decode0 op = none ↔ (fieldNNN op).toNat ≠ 0x0E0 ∧ (fieldNNN op).toNat ≠ 0x0EE := by
  unfold decode0
  split <;> simp_all [← BitVec.toNat_inj]

/-- Family 5 rejects every low nibble but 0 (R68). -/
theorem decode5_eq_none_iff (op : Word) : decode5 op = none ↔ (fieldN op).toNat ≠ 0 := by
  unfold decode5
  split <;> simp_all [← BitVec.toNat_inj]

/-- Family 8 rejects the low nibbles 8 to D and F (R69). -/
theorem decode8_eq_none_iff (op : Word) : decode8 op = none ↔
    8 ≤ (fieldN op).toNat ∧ (fieldN op).toNat ≤ 0xD ∨ (fieldN op).toNat = 0xF := by
  have hn := (fieldN op).isLt
  unfold decode8
  split <;> simp_all [← BitVec.toNat_inj]
  omega

/-- Family 9 rejects every low nibble but 0 (R68). -/
theorem decode9_eq_none_iff (op : Word) : decode9 op = none ↔ (fieldN op).toNat ≠ 0 := by
  unfold decode9
  split <;> simp_all [← BitVec.toNat_inj]

/-- Family E rejects every low byte but its two selectors (R69). -/
theorem decodeE_eq_none_iff (op : Word) :
    decodeE op = none ↔ (fieldKK op).toNat ≠ 0x9E ∧ (fieldKK op).toNat ≠ 0xA1 := by
  unfold decodeE
  split <;> simp_all [← BitVec.toNat_inj]

/-- Family F rejects every low byte but its nine selectors (R69). -/
theorem decodeF_eq_none_iff (op : Word) : decodeF op = none ↔
    (fieldKK op).toNat ∉ [0x07, 0x0A, 0x15, 0x18, 0x1E, 0x29, 0x33, 0x55, 0x65] := by
  unfold decodeF
  split <;> simp_all [← BitVec.toNat_inj]

/-- The table of R66 lists the words that one of the six families with a second level rejects. -/
theorem unknownWord_iff (op : Word) : UnknownWord op ↔
    (fieldF op = 0x0#4 ∧ decode0 op = none) ∨ (fieldF op = 0x5#4 ∧ decode5 op = none) ∨
    (fieldF op = 0x8#4 ∧ decode8 op = none) ∨ (fieldF op = 0x9#4 ∧ decode9 op = none) ∨
    (fieldF op = 0xE#4 ∧ decodeE op = none) ∨ (fieldF op = 0xF#4 ∧ decodeF op = none) := by
  rw [decode0_eq_none_iff, decode5_eq_none_iff, decode8_eq_none_iff, decode9_eq_none_iff,
    decodeE_eq_none_iff, decodeF_eq_none_iff]
  simp only [← BitVec.toNat_inj]
  rfl

/-- The words that do not decode are those of the table of R66. -/
theorem decodeWord_eq_none_iff (op : Word) : decodeWord op = none ↔ UnknownWord op := by
  rw [unknownWord_iff]
  unfold decodeWord
  split
  -- The last arm of the decoder is never reached.
  case h_17 =>
    have := (fieldF op).isLt
    simp_all [← BitVec.toNat_inj]
    omega
  all_goals next hf => simp [hf]

end Sys2Proof

namespace Sys2Proof.Machine

open Sys2Proof.Claims

/-- The opcode of a state whose `pc` can be fetched from stands there. -/
theorem fetchedWord_iff {s : State} {op : Word} :
    FetchedWord s op ↔ s.pc.toNat ≤ 0xFFE ∧ s.mem.word s.pc.toNat = op := by
  refine ⟨fun hop => ⟨hop.1, word_of_fetchedWord hop⟩, ?_⟩
  rintro ⟨hpc, rfl⟩
  exact ⟨hpc, (s.mem.hiByte_word _).symm, (s.mem.loByte_word _).symm⟩

/-- A cycle whose opcode does not decode ends in UnknownInstruction (R82). -/
theorem step_of_decode_none {s : State} (hpc : s.pc.toNat ≤ 0xFFE)
    (hdecode : decodeWord (s.mem.word s.pc.toNat) = none) :
    step s = .fault (.unknownInstruction (s.mem.word s.pc.toNat) s.pc) := by
  simp only [step, fetch_eq_ok hpc, hdecode]

/-- Settles O5: only the decode phase raises UnknownInstruction, and it rejects the words of the
table. -/
theorem unknownInstructionRaisedForExactlyTheListedWords :
    Obligations.UnknownInstructionRaisedForExactlyTheListedWords := by
  intro s op a
  rw [fetchedWord_iff, ← decodeWord_eq_none_iff]
  constructor
  · intro hstep
    rcases step_fault_cases hstep with ⟨_, hf⟩ | ⟨hpc, hdecode, hf⟩ | ⟨_, i, _, hexec⟩
    · cases hf
    · cases hf; exact ⟨⟨hpc, rfl⟩, hdecode, rfl⟩
    · rcases exec_fault_cases hexec with hf | hf | ⟨_, _, hf⟩ | ⟨_, hf⟩ <;> cases hf
  · rintro ⟨⟨hpc, rfl⟩, hdecode, rfl⟩
    exact step_of_decode_none hpc hdecode

end Sys2Proof.Machine
end

section
/-! What an instruction's rule can answer: the one fault it raises, and when (40_step_cycle.md R83,
60_exceptions.md R171). -/

namespace Sys2Proof.Machine

open Sys2Proof.Claims

/-! ## Faults of the execute phase -/

/-- The record of an access by the rule of `i` to the `len` bytes at `I`, when one of them lies
above 0xFFF (R175). -/
def rangeFault (i : Instr) (s : State) (len : Nat) (kind : AccessKind) : Option Fault :=
  (lowestBad s.i.toNat len).map fun a => .memoryOutOfRange (some (encode i)) (s.pc - 2) a kind

/-- The fault that the rule of an instruction raises, if it raises one: the table of R171. That
`exec` answers by it is `exec_cases`. -/
def raisedFault (i : Instr) (s : State) : Option Fault :=
  match i with
  | .call _ =>
    if s.sp.val = 16 then some (.stackOverflow (encode i) (s.pc - 2) s.sp.val) else none
  | .ret => if s.sp.val = 0 then some (.stackUnderflow (encode i) (s.pc - 2) s.sp.val) else none
  | .drw _ _ n => rangeFault i s n .read
  | .ldB _ => rangeFault i s 3 .write
  | .stRegs x => rangeFault i s (x.val + 1) .write
  | .ldRegs x => rangeFault i s (x.val + 1) .read
  | .skp x | .sknp x =>
    if 15 < (s.reg x).toNat then some (.keyIndexOutOfRange (encode i) (s.pc - 2) (s.reg x))
    else none
  | _ => none

/-- A rule raises the fault of the table, or completes. -/
theorem exec_cases (i : Instr) (s : State) :
    (raisedFault i s = none ∧ ∃ t, exec i s = .next t) ∨
    ∃ f, raisedFault i s = some f ∧ exec i s = .fault f := by
  cases i with
  | call nnn =>
    rcases s.push_cases s.pc with ⟨hsp, e⟩ | ⟨hsp, t, e, _⟩
    · exact .inr ⟨_, if_pos hsp, by rw [exec, execCall, e]; rfl⟩
    · exact .inl ⟨if_neg (by omega), _, by rw [exec, execCall, e]⟩
  | ret =>
    rcases s.pop_cases with ⟨hsp, e⟩ | ⟨k, hsp, t, e, _⟩
    · exact .inr ⟨_, if_pos hsp, by rw [exec, execRet, e]; rfl⟩
    · exact .inl ⟨if_neg (by omega), _, by rw [exec, execRet, e]⟩
  | drw x y n | ldB x | stRegs x | ldRegs x =>
    simp only [exec, execDrw, execLdB, execStRegs, execLdRegs, raisedFault, rangeFault]
    split
    · next e => rw [e]; exact .inr ⟨_, rfl, rfl⟩
    · next e => rw [e]; exact .inl ⟨rfl, _, rfl⟩
  | skp x | sknp x =>
    simp only [exec, execSkp, execSknp, raisedFault]
    rcases keyTest_cases (s.reg x) s.keys with ⟨hk, e⟩ | ⟨hk, e⟩
    · rw [e, if_neg (by omega)]; exact .inl ⟨rfl, _, rfl⟩
    · rw [e, if_pos hk]; exact .inr ⟨_, rfl, rfl⟩
  | ldVxK x =>
    refine .inl ⟨rfl, ?_⟩
    rw [exec, execLdVxK]
    split <;> exact ⟨_, rfl⟩
  -- The other 25 are a next state whatever the state is.
  | _ => exact .inl ⟨rfl, _, rfl⟩

/-- A rule ends in a fault exactly when the table has one for it, and in that fault. -/
theorem exec_eq_fault_iff {i : Instr} {s : State} {f : Fault} :
    exec i s = .fault f ↔ raisedFault i s = some f := by
  rcases exec_cases i s with ⟨hnone, t, hnext⟩ | ⟨f', hsome, hfault⟩
  · simp [hnone, hnext]
  · simp [hsome, hfault, eq_comm]

/-- A rule for which the table has no fault completes. -/
theorem exec_eq_next_of_raisedFault {i : Instr} {s : State} (h : raisedFault i s = none) :
    ∃ t, exec i s = .next t := by
  rcases exec_cases i s with ⟨_, hnext⟩ | ⟨f, hsome, _⟩
  · exact hnext
  · rw [h] at hsome; cases hsome

/-- The fault depends on `pc`, `sp`, `I` and `V` only. -/
theorem raisedFault_congr (i : Instr) {s s' : State} (hpc : s'.pc = s.pc) (hsp : s'.sp = s.sp)
    (hi : s'.i = s.i) (hv : s'.v = s.v) : raisedFault i s' = raisedFault i s := by
  have hreg : ∀ x, s'.reg x = s.reg x := State.reg_eq_of_v hv
  cases i <;> simp only [raisedFault, rangeFault, hreg, hpc, hsp, hi]

/-- The code of a range fault is 4, and there is one when the last of the bytes lies above 0xFFF. -/
theorem rangeFault_code {i : Instr} {s : State} {len c : Nat} {kind : AccessKind} :
    (∃ f, rangeFault i s len kind = some f ∧ f.code = c) ↔
      c = 4 ∧ 0 < len ∧ 0xFFF < s.i.toNat + len - 1 := by
  unfold rangeFault
  rcases lowestBad_cases s.i.toNat len with ⟨h, e⟩ | ⟨h, e⟩
  · simp [e]; omega
  · simp [e, Fault.code]; omega

/-- Settles O14: the table has no fault for these instructions. -/
theorem twentySixInstructionsRaiseNothing : Obligations.TwentySixInstructionsRaiseNothing := by
  intro i s hi
  refine exec_eq_next_of_raisedFault ?_
  cases i with
  | ret | call nnn | drw x y n | skp x | sknp x | ldB x | stRegs x | ldRegs x => cases hi
  | _ => rfl

/-- Settles O15: the faults of `exec` are those of `raisedFault`, whose checks are the listed ones: a
range at `I` for the first four instructions, a condition on `sp` or on a register for the next four,
and none for the rest. -/
theorem executeFaultsAreExactlyTheTabledOnes :
    Obligations.ExecuteFaultsAreExactlyTheTabledOnes := by
  intro i s c
  simp only [exec_eq_fault_iff]
  cases i with
  | drw x y n | ldB x | stRegs x | ldRegs x =>
    simp only [raisedFault, rangeFault_code]
    simp
  | call nnn | ret | skp x | sknp x =>
    simp [raisedFault, Fault.code, eq_comm, and_comm]
  | _ => simp [raisedFault]

end Sys2Proof.Machine
end

section
/-! What a completed rule leaves as it was: the frame of every instruction (10_state.md sections
2 to 10). -/

namespace Sys2Proof.Machine

open Sys2Proof.Claims

/-- The fields that an instruction does not write are as before. -/
def FrameOf (i : Instr) (s t : State) : Prop :=
  match i with
  | .cls => t = { s with fb := t.fb }
  | .drw _ _ _ => t = { s with fb := t.fb, v := t.v }
  | .ret => t = { s with pc := t.pc, sp := t.sp }
  | .call _ => t = { s with pc := t.pc, sp := t.sp, stack := t.stack }
  | .jp _ | .jpV0 _ | .seByte _ _ | .sneByte _ _ | .seReg _ _ | .sneReg _ _ | .skp _ | .sknp _ =>
    t = { s with pc := t.pc }
  | .ldByte _ _ | .addByte _ _ | .ldReg _ _ | .orReg _ _ | .andReg _ _ | .xorReg _ _ | .addReg _ _
  | .subReg _ _ | .shr _ _ | .subnReg _ _ | .shl _ _ | .ldVxDT _ | .ldRegs _ =>
    t = { s with v := t.v }
  | .ldVxK _ => t = { s with pc := t.pc, v := t.v }
  | .rnd _ _ => t = { s with v := t.v, draws := t.draws }
  | .ldI _ | .addI _ | .ldF _ => t = { s with i := t.i }
  | .ldDT _ => t = { s with dt := t.dt }
  | .ldST _ => t = { s with st := t.st }
  | .ldB _ | .stRegs _ => t = { s with mem := t.mem }

/-- A skip writes `pc` alone. -/
theorem skipIf_frame {c : Bool} {s t : State} (h : skipIf c s = .next t) :
    t = { s with pc := t.pc } := by
  cases c <;> cases h <;> rfl

/-- A completed rule keeps its instruction's frame. -/
theorem exec_frame {i : Instr} {s t : State} (h : exec i s = .next t) : FrameOf i s t := by
  cases i with
  | call nnn =>
    rcases s.push_cases s.pc with ⟨_, e⟩ | ⟨_, u, e, hu, _⟩ <;>
      rw [exec, execCall, e] at h <;> cases h
    rw [hu]; rfl
  | ret =>
    rcases s.pop_cases with ⟨_, e⟩ | ⟨k, _, u, e, hu, _⟩ <;>
      rw [exec, execRet, e] at h <;> cases h
    rw [hu]; rfl
  | drw x y n | ldB x | stRegs x =>
    simp only [exec, execDrw, execLdB, execStRegs] at h
    split at h <;> cases h
    rfl
  | ldRegs x =>
    simp only [exec, execLdRegs] at h
    split at h <;> cases h
    exact State.setRegs_frame ..
  | seByte x kk | sneByte x kk | seReg x y | sneReg x y => exact skipIf_frame h
  | skp x | sknp x =>
    simp only [exec, execSkp, execSknp] at h
    split at h
    · exact skipIf_frame h
    · cases h
  | ldVxK x =>
    simp only [exec, execLdVxK] at h
    split at h <;> cases h <;> rfl
  -- The other 20 write given values to given fields.
  | _ => cases h; rfl

end Sys2Proof.Machine
end

section
/-! The frame field by field, and the registers and bytes of memory that stay (10_state.md sections
2, 3, 4, 6 and 10; 20_memory.md section 2). -/

namespace Sys2Proof.Machine

open Sys2Proof.Claims

section
variable {i : Instr} {s t : State}

/-! ## Fields -/

/-- Only ANNN, FX1E and FX29 write `I`. -/
theorem exec_keeps_i (h : exec i s = .next t)
    (hi : ∀ nnn x, i ≠ .ldI nnn ∧ i ≠ .addI x ∧ i ≠ .ldF x) : t.i = s.i := by
  have hframe := exec_frame h
  cases i with
  | ldI nnn => exact absurd rfl (hi nnn 0).1
  | addI x => exact absurd rfl (hi 0 x).2.1
  | ldF x => exact absurd rfl (hi 0 x).2.2
  | _ => exact (congrArg State.i hframe :)

/-- Only 2NNN and 00EE write `sp`. -/
theorem exec_keeps_sp (h : exec i s = .next t) (hi : ∀ nnn, i ≠ .call nnn ∧ i ≠ .ret) :
    t.sp = s.sp := by
  have hframe := exec_frame h
  cases i with
  | call nnn => exact absurd rfl (hi nnn).1
  | ret => exact absurd rfl (hi 0).2
  | _ => exact (congrArg State.sp hframe :)

/-- Only 2NNN writes a stack entry. -/
theorem exec_keeps_stack (h : exec i s = .next t) (hi : ∀ nnn, i ≠ .call nnn) :
    t.stack = s.stack := by
  have hframe := exec_frame h
  cases i with
  | call nnn => exact absurd rfl (hi nnn)
  | _ => exact (congrArg State.stack hframe :)

/-- Only FX15 writes `DT`. -/
theorem exec_keeps_dt (h : exec i s = .next t) (hi : ∀ x, i ≠ .ldDT x) : t.dt = s.dt := by
  have hframe := exec_frame h
  cases i with
  | ldDT x => exact absurd rfl (hi x)
  | _ => exact (congrArg State.dt hframe :)

/-- Only FX18 writes `ST`. -/
theorem exec_keeps_st (h : exec i s = .next t) (hi : ∀ x, i ≠ .ldST x) : t.st = s.st := by
  have hframe := exec_frame h
  cases i with
  | ldST x => exact absurd rfl (hi x)
  | _ => exact (congrArg State.st hframe :)

/-- Only 00E0 and DXYN write the framebuffer. -/
theorem exec_keeps_fb (h : exec i s = .next t) (hi : ∀ x y n, i ≠ .cls ∧ i ≠ .drw x y n) :
    t.fb = s.fb := by
  have hframe := exec_frame h
  cases i with
  | cls => exact absurd rfl (hi 0 0 0).1
  | drw x y n => exact absurd rfl (hi x y n).2
  | _ => exact (congrArg State.fb hframe :)

/-- No instruction writes the keys. -/
theorem exec_keeps_keys (h : exec i s = .next t) : t.keys = s.keys := by
  have hframe := exec_frame h
  cases i <;> exact (congrArg State.keys hframe :)

/-- Only CXKK draws a random byte. -/
theorem exec_keeps_draws (h : exec i s = .next t) (hi : ∀ x kk, i ≠ .rnd x kk) :
    t.draws = s.draws := by
  have hframe := exec_frame h
  cases i with
  | rnd x kk => exact absurd rfl (hi x kk)
  | _ => exact (congrArg State.draws hframe :)

/-! ## Registers -/

/-- After a flag and a result are written, the other registers read as before (R13). -/
theorem reg_of_writeFlagResult {x r : RegIx} {flag result : Byte}
    (h : writeFlagResult x flag result s = .next t) (hr : ¬ (r = x ∨ r = 15)) :
    t.reg r = s.reg r := by
  obtain ⟨u, hnext, _, _, _, hrest⟩ := writeFlagResult_spec x flag result s
  cases hnext.symm.trans h
  exact hrest r (fun hx => hr (.inl hx)) fun hf => hr (.inr hf)

/-- An instruction keeps the registers that are not its destinations (R12). -/
theorem exec_keeps_reg (h : exec i s = .next t) {r : RegIx} (hr : ¬ MayWriteReg i r) :
    t.reg r = s.reg r := by
  have hframe := exec_frame h
  cases i with
  | ldByte x kk | addByte x kk | ldReg x y | orReg x y | andReg x y | xorReg x y | rnd x kk
  | ldVxDT x => cases h; exact State.reg_setReg_ne _ _ _ _ hr
  | addReg x y | subReg x y | shr x y | subnReg x y | shl x y => exact reg_of_writeFlagResult h hr
  | ldVxK x =>
    simp only [exec, execLdVxK] at h
    split at h <;> cases h
    · exact State.reg_setReg_ne _ _ _ _ hr
    · rfl
  | drw x y n =>
    simp only [exec, execDrw] at h
    split at h <;> cases h
    exact State.reg_setReg_ne _ _ _ _ hr
  | ldRegs x =>
    simp only [exec, execLdRegs] at h
    split at h <;> cases h
    have hout : ¬ (0 ≤ r.val ∧ r.val - 0 < x.val + 1) := fun hin => hr (Fin.le_def.mpr (by omega))
    rw [State.reg_setRegs, dif_neg (by rwa [Memory.length_bytes])]
  | _ => exact State.reg_eq_of_v (congrArg State.v hframe :) r

/-! ## Memory -/

/-- Everything a completed rule does to memory: it stores as many bytes as `storedBytes` says, from
address `I` up and inside memory (R49). -/
theorem exec_mem (h : exec i s = .next t) :
    ∃ bs : List Byte, bs.length = storedBytes i ∧ (bs = [] ∨ s.i.toNat + bs.length ≤ memSize) ∧
      t.mem = s.mem.setBytes s.i.toNat bs := by
  have hframe := exec_frame h
  cases i with
  | ldB x =>
    simp only [exec, execLdB] at h
    split at h <;> cases h
    next e => exact ⟨_, rfl, .inr (by have := lowestBad_eq_none.mp e; simp [bcdDigits]; omega), rfl⟩
  | stRegs x =>
    simp only [exec, execStRegs] at h
    split at h <;> cases h
    next e =>
      have hlen := length_regBlock x s
      exact ⟨_, hlen, .inr (by have := lowestBad_eq_none.mp e; rw [hlen, memSize_eq]; omega), rfl⟩
  | _ => exact ⟨[], rfl, .inl rfl, (congrArg State.mem hframe :)⟩

/-- Every instruction keeps memory in canonical form. -/
theorem exec_mem_wf (h : exec i s = .next t) (hwf : s.mem.wf = true) : t.mem.wf = true := by
  obtain ⟨bs, _, _, hmem⟩ := exec_mem h
  exact hmem ▸ Memory.wf_setBytes bs _ hwf

/-- A byte outside the stored ones reads as before. -/
theorem exec_keeps_byte (h : exec i s = .next t) (hwf : s.mem.wf = true) {a : Nat}
    (ha : ¬ (s.i.toNat ≤ a ∧ a < s.i.toNat + storedBytes i)) : t.mem.byte a = s.mem.byte a := by
  obtain ⟨bs, hlen, rfl | hrange, hmem⟩ := exec_mem h
  · rw [hmem, Memory.setBytes]
  · rw [hmem, Memory.byte_setBytes _ _ hwf hrange, dif_neg (by omega)]

end

/-- Settles O19: the frame, clause by clause. -/
theorem instructionsChangeOnlyTheirDestinations :
    Obligations.InstructionsChangeOnlyTheirDestinations := by
  intro i s t hwf h
  exact ⟨fun _ hr => exec_keeps_reg h hr, exec_keeps_i h, exec_keeps_sp h, exec_keeps_stack h,
    exec_keeps_dt h, exec_keeps_st h, exec_keeps_fb h, exec_keeps_keys h, exec_keeps_draws h,
    fun _ ha => exec_keeps_byte h hwf ha⟩

end Sys2Proof.Machine
end

section
/-! The cycle: from an instruction's rule to `step`, the timers, the records of a failed cycle
(40_step_cycle.md R80 to R88, 60_exceptions.md R170 to R180). -/

namespace Sys2Proof.Machine

open Sys2Proof.Claims

/-! ## From a rule to its cycle -/

/-- The bytes at `pc` are those of an instruction when their word decodes to it. -/
theorem fetchedInstr_iff {s : State} {i : Instr} : FetchedInstr s i ↔
    s.pc.toNat ≤ 0xFFE ∧ decodeWord (s.mem.word s.pc.toNat) = some i :=
  and_congr_right fun _ => decode_pair

/-- The cycle of an instruction that stands at `pc` (R80). -/
theorem step_of_fetchedInstr {s : State} {i : Instr} (hi : FetchedInstr s i) :
    step s = finishCycle (exec i s.advance) := by
  obtain ⟨hpc, hdecode⟩ := fetchedInstr_iff.mp hi
  exact step_of_decode hpc hdecode

/-- A completed cycle is the completed rule of the instruction at `pc`, ticked. -/
theorem exec_of_step {s t : State} {i : Instr} (hi : FetchedInstr s i) (h : step s = .next t) :
    ∃ u, exec i s.advance = .next u ∧ t = u.tick := by
  rw [step_of_fetchedInstr hi] at h
  cases hexec : exec i s.advance with
  | next u => rw [hexec] at h; cases h; exact ⟨u, rfl, rfl⟩
  | fault f => rw [hexec] at h; cases h
  | refused r => rw [hexec] at h; cases h

/-- A completed cycle ran some instruction that stands at `pc`. -/
theorem fetchedInstr_of_step {s t : State} (h : step s = .next t) : ∃ i, FetchedInstr s i := by
  obtain ⟨hpc, i, _, hdecode, _⟩ := step_next_cases h
  exact ⟨i, fetchedInstr_iff.mpr ⟨hpc, hdecode⟩⟩

/-- Settles O6: the cycle ends its rule's outcome with the tick, which is that of the statement. -/
theorem stepRunsDecodedInstruction : Obligations.StepRunsDecodedInstruction := by
  intro s i hi
  have hstep := step_of_fetchedInstr hi
  refine ⟨fun t ht => ?_, fun f hf => ?_, fun r hr => ?_⟩
  · rw [hstep, show exec i s.advance = .next t from ht, finishCycle, State.tick,
      tickTimer_eq_ticked, tickTimer_eq_ticked]
  · rw [hstep, show exec i s.advance = .fault f from hf, finishCycle]
  · rw [hstep, show exec i s.advance = .refused r from hr, finishCycle]

/-- Settles O9: the tick takes 1 from the value that the rule leaves in a timer, which is the old
one but for FX15 and FX18. -/
theorem timersTickOncePerSuccessfulCycle : Obligations.TimersTickOncePerSuccessfulCycle := by
  intro s t i hi h
  obtain ⟨u, hexec, rfl⟩ := exec_of_step hi h
  simp only [State.tick_dt, State.tick_st, tickTimer_toNat]
  refine ⟨fun hdt => ?_, fun hst => ?_, ?_, ?_⟩
  · rw [exec_keeps_dt hexec hdt, State.advance_dt]
  · rw [exec_keeps_st hexec hst, State.advance_st]
  · rintro x rfl
    rw [exec_ldDT] at hexec
    cases hexec
    rfl
  · rintro x rfl
    rw [exec_ldST] at hexec
    cases hexec
    rfl

/-! ## Cycles without a next state -/

/-- A cycle that cannot fetch faults in fetch (R81). -/
theorem step_of_pc_above {s : State} (hpc : 0xFFE < s.pc.toNat) :
    step s = .fault (.memoryOutOfRange none s.pc (max s.pc.toNat 4096) .fetch) := by
  rcases fetch_cases s with ⟨hle, _⟩ | ⟨_, hfetch⟩
  · omega
  · rw [step, hfetch]

/-- Settles O8: the lowest address of the fetch above 0xFFF is `pc`, or 0x1000 after 0xFFF. -/
theorem fetchAboveMemoryFaults : Obligations.FetchAboveMemoryFaults := by
  intro s hpc
  have hlowest : max s.pc.toNat 4096 =
      if 0x1000 ≤ s.pc.toNat then s.pc.toNat else s.pc.toNat + 1 := by
    split <;> omega
  rw [step_of_pc_above hpc, hlowest]

/-- Settles O11: fetch and decode end in a fault, and no rule refuses. -/
theorem stepNeverRefuses : Obligations.StepNeverRefuses := by
  intro s r h
  by_cases hpc : s.pc.toNat ≤ 0xFFE
  · cases hdecode : decodeWord (s.mem.word s.pc.toNat) with
    | none => rw [step_of_decode_none hpc hdecode] at h; cases h
    | some i =>
      rw [step_of_decode hpc hdecode] at h
      rcases exec_cases i s.advance with ⟨_, t, hexec⟩ | ⟨f, _, hexec⟩ <;>
        rw [hexec] at h <;> cases h
  · rw [step_of_pc_above (by omega)] at h; cases h

/-- Settles O12: each phase reads no other element on its way to a fault. -/
theorem faultsDependOnlyOnPcMemSpIndexAndRegisters :
    Obligations.FaultsDependOnlyOnPcMemSpIndexAndRegisters := by
  intro s s' f hpc hmem hsp hi hv h
  rcases step_fault_cases h with ⟨habove, rfl⟩ | ⟨hle, hdecode, rfl⟩ | ⟨hle, i, hdecode, hexec⟩
  · rw [← hpc] at habove ⊢
    exact step_of_pc_above habove
  · rw [← hpc, ← hmem] at hdecode ⊢
    exact step_of_decode_none (hpc ▸ hle) hdecode
  · rw [← hpc, ← hmem] at hdecode
    have hadvance : s'.advance.pc = s.advance.pc := congrArg (· + 2) hpc
    have hraised : raisedFault i s'.advance = some f :=
      (raisedFault_congr i hadvance hsp hi hv).trans (exec_eq_fault_iff.mp hexec)
    rw [step_of_decode (hpc ▸ hle) hdecode, exec_eq_fault_iff.mpr hraised, finishCycle]

/-- A fault of the execute phase records its instruction's opcode, and its cause is 2 to 5. -/
theorem op_and_code_of_exec_fault {i : Instr} {s : State} {f : Fault} (h : exec i s = .fault f) :
    f.op = some (encode i) ∧ 2 ≤ f.code ∧ f.code ≤ 5 := by
  rcases exec_fault_cases h with rfl | rfl | ⟨_, _, rfl⟩ | ⟨_, rfl⟩ <;>
    exact ⟨rfl, by simp [Fault.code], by simp [Fault.code]⟩

/-- Settles O13: the three phases in which a cycle can fail; an opcode that decodes is that of its
instruction, so a rule records the word fetched. -/
theorem stepFaultRecordHoldsOpcodeAndAddress :
    Obligations.StepFaultRecordHoldsOpcodeAndAddress := by
  intro s f h
  refine ⟨step_fault_pcFetch h, ?_⟩
  rcases step_fault_cases h with ⟨habove, rfl⟩ | ⟨hle, _, rfl⟩ | ⟨hle, i, hdecode, hexec⟩
  · exact ⟨fun hle => by omega, fun _ => rfl, by simp [Fault.code], by simp [Fault.code]⟩
  · exact ⟨fun _ => ⟨_, rfl, fetchedWord_iff.mpr ⟨hle, rfl⟩⟩, fun habove => by omega, le_refl 1,
      by simp [Fault.code]⟩
  · obtain ⟨hop, hlow, hhigh⟩ := op_and_code_of_exec_fault hexec
    exact ⟨fun _ => ⟨_, hop, fetchedWord_iff.mpr ⟨hle, (encode_of_decodeWord hdecode).1.symm⟩⟩,
      fun habove => by omega, by omega, hhigh⟩

end Sys2Proof.Machine
end

section
/-! `pc` at the end of a cycle, and the invariant that every cycle and every command of the host
keeps (10_state.md R15, 43_control.md R122, 70_reset_and_hazards.md). -/

namespace Sys2Proof.Machine

open Sys2Proof.Claims

/-! ## Where a rule leaves `pc` -/

/-- The advance of a fetch inside memory does not wrap (R86). -/
theorem toNat_advance_pc {s : State} (hpc : s.pc.toNat ≤ 0xFFE) :
    s.advance.pc.toNat = s.pc.toNat + 2 := by
  rw [State.advance_pc]
  bv_omega

/-- A byte operand is zero-extended: the word has its value (R110). -/
@[simp] theorem toNat_byteWord (b : Byte) : (byteWord b).toNat = b.toNat :=
  BitVec.toNat_setWidth_of_le (by decide)

/-- The target of BNNN is the sum itself: it is below 65536 (R123). -/
theorem toNat_byteWord_add_addrWord (b : Byte) (nnn : Addr) :
    (byteWord b + addrWord nnn).toNat = b.toNat + nnn.toNat := by
  have hb := b.isLt
  have hnnn := nnn.isLt
  rw [BitVec.toNat_add, toNat_byteWord, toNat_addrWord]
  omega

/-- A skip instruction whose test is its condition leaves `pc` at the next instruction or the one
after it (R92). -/
theorem toNat_pc_of_skipIf {s u : State} {c : Bool} {p : Prop} (hpc : s.pc.toNat ≤ 0xFFE)
    (hc : c = true ↔ p) (h : skipIf c s.advance = .next u) :
    (p → u.pc.toNat = s.pc.toNat + 4) ∧ (¬ p → u.pc.toNat = s.pc.toNat + 2) := by
  have hadvance := toNat_advance_pc hpc
  rw [← hc]
  cases c <;> cases h
  · exact ⟨fun hfalse => absurd hfalse Bool.false_ne_true, fun _ => hadvance⟩
  · refine ⟨fun _ => ?_, fun h => absurd rfl h⟩
    rw [if_pos rfl, State.skip_pc]
    bv_omega

/-- A key test that answers says whether the key of that number is pressed (R150). -/
theorem keyTest_eq_some {k : Byte} {keys : Keys} {pressed : Bool}
    (h : keyTest k keys = some pressed) : ∃ hk : k.toNat < 16, keys[k.toNat] = pressed := by
  unfold keyTest at h
  split at h
  · next hk => cases h; exact ⟨hk, rfl⟩
  · cases h

/-- The table of R15, for the state that a completed rule leaves before the tick. -/
theorem pcAfter_of_exec {i : Instr} {s u : State} (hpc : s.pc.toNat ≤ 0xFFE)
    (h : exec i s.advance = .next u) : PcAfter i s u := by
  have hadvance := toNat_advance_pc hpc
  have hframe := exec_frame h
  cases i with
  | jp nnn => cases h; exact toNat_addrWord nnn
  | call nnn =>
    rcases s.advance.push_cases s.advance.pc with ⟨_, e⟩ | ⟨_, t, e, _⟩ <;>
      rw [exec, execCall, e] at h <;> cases h
    exact toNat_addrWord nnn
  | jpV0 nnn => cases h; exact toNat_byteWord_add_addrWord ..
  | ret =>
    rcases s.advance.pop_cases with ⟨_, e⟩ | ⟨k, hk, t, e, _⟩ <;>
      rw [exec, execRet, e] at h <;> cases h
    exact ⟨k, hk, rfl⟩
  | ldVxK x =>
    rcases lowestPressed_cases s.keys with ⟨hnone, e⟩ | ⟨k, hk, _, e⟩
    · rw [exec_ldVxK_of_none x (s := s.advance) hnone] at h
      cases h
      exact ⟨fun ⟨k, hk⟩ => by simp [hnone k] at hk, fun _ => BitVec.add_sub_cancel s.pc 2⟩
    · rw [exec_ldVxK_of_pressed x (s := s.advance) e] at h
      cases h
      exact ⟨fun _ => hadvance, fun hnone => by simp [hnone k] at hk⟩
  | seByte x kk => exact toNat_pc_of_skipIf hpc beq_iff_eq h
  | sneByte x kk => exact toNat_pc_of_skipIf hpc bne_iff_ne h
  | seReg x y => exact toNat_pc_of_skipIf hpc beq_iff_eq h
  | sneReg x y => exact toNat_pc_of_skipIf hpc bne_iff_ne h
  | skp x =>
    simp only [exec, execSkp] at h
    split at h
    next pressed e =>
      obtain ⟨hk, hpressed⟩ := keyTest_eq_some e
      exact toNat_pc_of_skipIf hpc ⟨fun hc => ⟨hk, hpressed.trans hc⟩,
        fun ⟨_, hc⟩ => hpressed.symm.trans hc⟩ h
    next => cases h
  | sknp x =>
    simp only [exec, execSknp] at h
    split at h
    next pressed e =>
      obtain ⟨hk, hpressed⟩ := keyTest_eq_some e
      refine toNat_pc_of_skipIf hpc (p := SkipHolds (.sknp x) s) ?_ h
      rw [Bool.not_eq_true', ← hpressed]
      exact ⟨fun hc => ⟨hk, hc⟩, fun ⟨_, hc⟩ => hc⟩
    next => cases h
  | _ => exact (congrArg (·.pc.toNat) hframe :).trans hadvance

/-- Settles O10: the tick does not write `pc`. -/
theorem pcAtEndOfCycle : Obligations.PcAtEndOfCycle := by
  intro s t i hi h
  obtain ⟨u, hexec, rfl⟩ := exec_of_step hi h
  have hafter := pcAfter_of_exec hi.1 hexec
  cases i <;> exact hafter

/-! ## The invariant -/

/-- A completed cycle leaves `pc` at most at 0x10FE, the target of BNNN with the largest operands
(R15). -/
theorem toNat_pc_le_of_step {s t : State} (hstack : s.StackInRange) (h : step s = .next t) :
    t.pc.toNat ≤ 0x10FE := by
  obtain ⟨i, hi⟩ := fetchedInstr_of_step h
  have hpc := hi.1
  have hafter := pcAtEndOfCycle s t i hi h
  cases i with
  | jp nnn | call nnn =>
    have := nnn.isLt
    simp only [PcAfter] at hafter
    omega
  | jpV0 nnn =>
    have := nnn.isLt
    have := (s.reg 0).isLt
    simp only [PcAfter] at hafter
    omega
  | ret =>
    obtain ⟨k, hsp, hret⟩ := hafter
    have := hstack k (by omega)
    rw [hret]
    omega
  | ldVxK x =>
    obtain ⟨hpressed, hnone⟩ := hafter
    by_cases hkey : ∃ k : Fin 16, s.keys.get k = true
    · have := hpressed hkey
      omega
    · rw [hnone fun k => Bool.eq_false_of_not_eq_true fun hk => hkey ⟨k, hk⟩]
      omega
  | seByte x kk | sneByte x kk | seReg x y | sneReg x y | skp x | sknp x =>
    obtain ⟨hskip, hnext⟩ := hafter
    rcases (Classical.em _).imp hskip hnext with hafter | hafter <;> omega
  | _ =>
    simp only [PcAfter] at hafter
    omega

/-- A rule that runs below 0x1001 keeps the return addresses at most 0x1000: 2NNN pushes its own
`pc`, and 00EE takes an entry off (R122). -/
theorem stackInRange_of_exec {i : Instr} {s u : State} (hstack : s.StackInRange)
    (hpc : s.pc.toNat ≤ 0x1000) (h : exec i s = .next u) : u.StackInRange := by
  have hframe := exec_frame h
  cases i with
  | call nnn =>
    rcases s.push_cases s.pc with ⟨_, e⟩ | ⟨_, t, e, _, hsp, hget⟩ <;>
      rw [exec, execCall, e] at h <;> cases h
    intro k hk
    rw [hget k]
    split
    · exact hpc
    · exact hstack k (by simp only [hsp] at hk; omega)
  | ret =>
    rcases s.pop_cases with ⟨_, e⟩ | ⟨k, hsp, t, e, ht, hspt⟩ <;>
      rw [exec, execRet, e] at h <;> cases h
    intro j hj
    rw [ht]
    exact hstack j (by simp only [hspt] at hj; omega)
  | _ =>
    have hsp := (congrArg State.sp hframe :)
    have hentries := (congrArg State.stack hframe :)
    rw [State.StackInRange, hsp, hentries]
    exact hstack

/-- Every completed cycle keeps the invariant. -/
theorem step_keeps_inv {s t : State} (hinv : s.Inv) (h : step s = .next t) : t.Inv := by
  obtain ⟨hmem, hstack, _⟩ := hinv
  obtain ⟨i, hi⟩ := fetchedInstr_of_step h
  obtain ⟨u, hexec, rfl⟩ := exec_of_step hi h
  have hadvance : s.advance.pc.toNat ≤ 0x1000 := by
    have := hi.1
    rw [toNat_advance_pc hi.1]
    omega
  have hstack' : u.StackInRange :=
    stackInRange_of_exec (s := s.advance) hstack hadvance hexec
  have hmem' : u.mem.wf = true := exec_mem_wf hexec hmem
  exact ⟨hmem', hstack', toNat_pc_le_of_step hstack h⟩

/-- Settles O16: `step_keeps_inv`. -/
theorem stepKeepsInvariant : Obligations.StepKeepsInvariant :=
  fun _ _ hinv h => step_keeps_inv hinv h

/-- The reset state meets the invariant whatever the font: its stack is empty. -/
theorem State.resetWith_inv (font : Font) : (State.resetWith font).Inv :=
  ⟨Memory.wf_withFont font, fun k hk => absurd hk (Nat.not_lt_zero k.val),
    (by decide : State.reset.pc.toNat ≤ 0x10FE)⟩

/-- Settles O17: `State.reset` is the reset state with the font of `params`. -/
theorem resetMeetsInvariant : Obligations.ResetMeetsInvariant :=
  ⟨State.resetWith_params ▸ State.resetWith_inv params.font, State.resetWith_inv⟩

/-- Every command of the host keeps the invariant. -/
theorem perform_keeps_inv {font : Font} {c : Command} {s t : State} (hinv : s.Inv)
    (h : perform font c s = .next t) : t.Inv := by
  cases c with
  | reset =>
    obtain ⟨hmem, hstack, hpc⟩ := State.resetWith_inv font
    cases h
    exact ⟨hmem, hstack, hpc⟩
  | load bytes =>
    have hmem := load_mem_wf hinv.mem h
    simp only [perform, load] at h
    split at h <;> cases h
    exact ⟨hmem, hinv.stack, hinv.pc⟩
  | setKeys keys => cases h; exact ⟨hinv.mem, hinv.stack, hinv.pc⟩
  | step => exact step_keeps_inv hinv h

/-- Settles O18, by induction on the commands: each keeps the invariant. -/
theorem hostCommandsKeepInvariant : Obligations.HostCommandsKeepInvariant := by
  intro font cs
  induction cs with
  | nil => intro s t hinv h; cases h; exact hinv
  | cons c cs ih =>
    intro s t hinv h
    simp only [performAll] at h
    split at h
    next u hperform => exact ih u t (perform_keeps_inv hinv hperform) h
    next => cases h
    next => cases h

end Sys2Proof.Machine
end

section
/-! Instructions that write one register, a flag and a register, `pc` or `I`: opcodes, results and
frames (41_reg_imm_and_skip.md, 42_alu.md, 43_control.md, 44_index_memory.md,
46_keys_timers_random.md). -/

namespace Sys2Proof.Machine

open Sys2Proof.Claims

/-! ## Register/byte instructions, move and logic -/

/-- Settles O21: `7XKK` is the register write of the sum. -/
theorem addByteWrapsWithoutFlag : Obligations.AddByteWrapsWithoutFlag := by
  intro x kk s
  obtain ⟨t, hnext, hframe, hreg⟩ :=
    writeResult_spec x (BitVec.ofNat 8 ((s.reg x).toNat + kk.toNat)) s
  refine ⟨encodes_of_wellFormed rfl rfl, t, hnext, hframe, ?_, fun r hr => ?_⟩
  · rw [hreg, if_pos rfl, BitVec.toNat_ofNat]
  · rw [hreg, if_neg hr]

/-- Settles O24: each of the four is the register write of its value. -/
theorem moveAndLogicWriteOnlyDestination : Obligations.MoveAndLogicWriteOnlyDestination := by
  intro x y s
  exact ⟨⟨encodes_of_wellFormed rfl rfl, writeResult_spec x (s.reg y) s⟩,
    ⟨encodes_of_wellFormed rfl rfl, writeResult_spec x (s.reg x ||| s.reg y) s⟩,
    ⟨encodes_of_wellFormed rfl rfl, writeResult_spec x (s.reg x &&& s.reg y) s⟩,
    ⟨encodes_of_wellFormed rfl rfl, writeResult_spec x (s.reg x ^^^ s.reg y) s⟩⟩

/-- Settles O52: CXKK is the register write of the masked byte, in the state with the draw counted.
-/
theorem randomByteIsMasked : Obligations.RandomByteIsMasked := by
  intro x kk s
  obtain ⟨t, hnext, hframe, hreg⟩ := writeResult_spec x (Config.freeByte s.draws &&& kk)
    { s with draws := s.draws + 1 }
  exact ⟨encodes_of_wellFormed rfl rfl, t, hnext, hframe, hreg⟩

/-! ## Skips -/

/-- A skip on a condition moves `pc` on by 2 when it holds (R92). -/
theorem skipIf_eq {c : Bool} {p : Prop} [Decidable p] (hc : c = true ↔ p) (s : State) :
    skipIf c s = .next (if p then { s with pc := s.pc + 2 } else s) :=
  congrArg Host.Outcome.next (if_congr hc rfl rfl)

/-- A skip on the opposite of a condition moves `pc` on by 2 when the condition fails (R93). -/
theorem skipIf_eq_of_not {c : Bool} {p : Prop} [Decidable p] (hc : c = true ↔ ¬ p) (s : State) :
    skipIf c s = .next (if p then s else { s with pc := s.pc + 2 }) := by
  rw [skipIf_eq hc, ite_not]

/-- Settles O22: the tests of `3XKK` and `4XKK` are equality and its opposite. -/
theorem skipsOnByteComparison : Obligations.SkipsOnByteComparison := by
  intro x kk s
  exact ⟨encodes_of_wellFormed rfl rfl, encodes_of_wellFormed rfl rfl, skipIf_eq beq_iff_eq s,
    skipIf_eq_of_not bne_iff_ne s⟩

/-- Settles O23: the tests of `5XY0` and `9XY0` are equality and its opposite. -/
theorem skipsOnRegisterComparison : Obligations.SkipsOnRegisterComparison := by
  intro x y s
  exact ⟨encodes_of_wellFormed rfl rfl, encodes_of_wellFormed rfl rfl, skipIf_eq beq_iff_eq s,
    skipIf_eq_of_not bne_iff_ne s⟩

/-- The key number is tested for the keys 0 to 15. -/
theorem keyTest_of_toNat_eq {b : Byte} {k : Fin 16} (hk : b.toNat = k.val) (keys : Keys) :
    keyTest b keys = some (keys.get k) := by
  rcases keyTest_cases b keys with ⟨hlt, e⟩ | ⟨hgt, _⟩
  · rw [e, Fin.ext (a := ⟨b.toNat, hlt⟩) hk]
  · omega

/-- Settles O48: the key of a number up to 15 is tested; a larger number is the fault of the table.
-/
theorem keySkipsTestTheNumberedKey : Obligations.KeySkipsTestTheNumberedKey := by
  intro x s
  refine ⟨encodes_of_wellFormed rfl rfl, encodes_of_wellFormed rfl rfl, fun k hk => ?_, fun hk =>
    ⟨exec_eq_fault_iff.mpr (if_pos hk), exec_eq_fault_iff.mpr (if_pos hk)⟩⟩
  have htest := keyTest_of_toNat_eq hk s.keys
  constructor
  · rw [exec, execSkp, htest]
    exact skipIf_eq Iff.rfl s
  · rw [exec, execSknp, htest]
    exact skipIf_eq_of_not (by simp) s

/-! ## Reverse subtraction and shifts -/

/-- Settles O27: `8XY7` is the write of greater flag and difference with the operands exchanged. -/
theorem reverseSubtractSetsStrictGreaterFlag :
    Obligations.ReverseSubtractSetsStrictGreaterFlag := by
  intro x y s
  obtain ⟨t, hnext, hframe, hdifference, hgreater, hrest⟩ := writeFlagResult_spec x
    (greaterFlag (s.reg y) (s.reg x)) (BitVec.ofNat 8 (256 + (s.reg y).toNat - (s.reg x).toNat)) s
  refine ⟨encodes_of_wellFormed rfl rfl, t, hnext, hframe, ?_, fun hx => ?_, hrest⟩
  · rw [hdifference, toNat_difference]
  · rw [hgreater hx, greaterFlag_eq]

/-- The bit that SHR moves out is the remainder by 2 (R107). -/
theorem toNat_shrFlag (a : Byte) : (shrFlag a).toNat = a.toNat % 2 := by
  revert a; decide

/-- The bit that SHL moves out is the quotient by 128 (R109). -/
theorem toNat_shlFlag (a : Byte) : (shlFlag a).toNat = a.toNat / 128 := by
  revert a; decide

/-- Settles O28: both shifts are the write of a flag and a result of `V[X]`, the operand that
`params` takes. -/
theorem shiftsMoveOneBitIntoFlag : Obligations.ShiftsMoveOneBitIntoFlag := by
  intro x y s
  have ha := (s.reg x).isLt
  constructor
  · obtain ⟨t, hnext, hframe, hresult, hflag, hrest⟩ := writeFlagResult_spec x
      (shrFlag (s.reg x)) (BitVec.ofNat 8 ((s.reg x).toNat / 2)) s
    refine ⟨encodes_of_wellFormed rfl rfl, t, hnext, hframe, ?_, fun hx => ?_, hrest⟩
    · rw [hresult, BitVec.toNat_ofNat]
      omega
    · rw [hflag hx, toNat_shrFlag]
  · obtain ⟨t, hnext, hframe, hresult, hflag, hrest⟩ := writeFlagResult_spec x
      (shlFlag (s.reg x)) (BitVec.ofNat 8 (2 * (s.reg x).toNat)) s
    refine ⟨encodes_of_wellFormed rfl rfl, t, hnext, hframe, ?_, fun hx => ?_, hrest⟩
    · rw [hresult, BitVec.toNat_ofNat]
    · rw [hflag hx, toNat_shlFlag]

/-! ## Jumps, call and return -/

/-- Settles O32: the sum of a byte and an address does not wrap. -/
theorem indexedJumpAddsV0 : Obligations.IndexedJumpAddsV0 := by
  intro nnn s
  exact ⟨encodes_of_wellFormed rfl rfl, { s with pc := byteWord (s.reg 0) + addrWord nnn }, rfl,
    rfl, toNat_byteWord_add_addrWord _ _⟩

/-- Settles O36: `FX1E` writes the 16-bit sum to `I` alone. -/
theorem addIndexWrapsWithoutFlag : Obligations.AddIndexWrapsWithoutFlag := by
  intro x s
  refine ⟨encodes_of_wellFormed rfl rfl, { s with i := s.i + byteWord (s.reg x) }, rfl, rfl, ?_⟩
  rw [BitVec.toNat_add, toNat_byteWord]

/-- Executing `2NNN` with a free stack entry: the push of `pc`, and the jump (R121). -/
theorem exec_call_of_lt (nnn : Addr) {s : State} (hsp : s.sp.val < 16) :
    ∃ t, exec (.call nnn) s = .next t ∧
      t = { s with pc := addrWord nnn, sp := t.sp, stack := t.stack } ∧
      t.sp.val = s.sp.val + 1 ∧
      ∀ k : Fin 16, t.stack.get k = if k.val = s.sp.val then s.pc else s.stack.get k := by
  rcases s.push_cases s.pc with ⟨hfull, _⟩ | ⟨_, u, e, hu, hspu, hget⟩
  · omega
  · refine ⟨{ u with pc := addrWord nnn }, by rw [exec, execCall, e], ?_, hspu, hget⟩
    rw [hu]

/-- Executing `00EE` with `k + 1` return addresses on the stack: the jump to the last, which stays
in its entry (R122). -/
theorem exec_ret_of_eq {s : State} {k : Fin 16} (hsp : s.sp.val = k.val + 1) :
    exec .ret s = .next { s with pc := s.stack.get k, sp := ⟨k.val, by omega⟩ } := by
  rcases s.pop_cases with ⟨hzero, _⟩ | ⟨j, hspj, u, e, hu, hspu⟩
  · omega
  · have hj : j = k := Fin.ext (by omega)
    subst hj
    have hsp' : u.sp = ⟨j.val, by omega⟩ := Fin.ext hspu
    rw [exec, execRet, e, hu, hsp']

/-- Settles O30: below 16 entries `exec_call_of_lt`, at 16 the fault of the table. -/
theorem callPushesReturnAddress : Obligations.CallPushesReturnAddress := by
  intro nnn s
  refine ⟨encodes_of_wellFormed rfl rfl, fun hsp => ?_, fun hsp => ?_⟩
  · obtain ⟨t, hnext, hframe, hspt, hget⟩ := exec_call_of_lt nnn hsp
    have hpc : t.pc = addrWord nnn := congrArg State.pc hframe
    exact ⟨t, hnext, hpc ▸ hframe, hpc ▸ toNat_addrWord nnn, hspt, hget⟩
  · have hraised : raisedFault (.call nnn) s =
        some (.stackOverflow (0x2#4 ++ nnn) (s.pc - 2) s.sp.val) := if_pos hsp
    rw [exec_eq_fault_iff.mpr hraised, hsp]

/-- Settles O31: above 0 entries `exec_ret_of_eq`, at 0 the fault of the table. -/
theorem returnPopsAddress : Obligations.ReturnPopsAddress := by
  intro s
  refine ⟨encodes_of_wellFormed rfl rfl, fun k hsp => ⟨_, exec_ret_of_eq hsp, rfl, rfl⟩,
    fun hsp => ?_⟩
  have hraised : raisedFault .ret s =
      some (.stackUnderflow 0x00EE#16 (s.pc - 2) s.sp.val) := if_pos hsp
  rw [exec_eq_fault_iff.mpr hraised, hsp]

/-- Settles O33: the return takes the entry that the call pushed, which is the caller's `pc`. -/
theorem returnUndoesCall : Obligations.ReturnUndoesCall := by
  intro nnn s t p h
  have hsp : s.sp.val < 16 := by
    refine Nat.lt_of_le_of_ne (Nat.le_of_lt_succ s.sp.isLt) fun hfull => ?_
    have hraised : raisedFault (.call nnn) s =
        some (.stackOverflow (encode (.call nnn)) (s.pc - 2) s.sp.val) := if_pos hfull
    rw [exec_eq_fault_iff.mpr hraised] at h
    cases h
  obtain ⟨t', hnext, hframe, hspt, hget⟩ := exec_call_of_lt nnn hsp
  cases hnext.symm.trans h
  have hentry : t.stack.get ⟨s.sp.val, hsp⟩ = s.pc := (hget _).trans (if_pos rfl)
  refine ⟨_, exec_ret_of_eq (s := { t with pc := p }) (k := ⟨s.sp.val, hsp⟩) hspt, ?_⟩
  rw [hentry]
  exact congrArg (fun u : State => { u with pc := s.pc, sp := s.sp }) hframe

/-! ## The self-jump -/

/-- Settles O34: the jump puts back the `pc` that fetch advanced, so only the tick is left, and the
next fetch reads the same opcode. -/
theorem selfJumpOnlyTicks : Obligations.SelfJumpOnlyTicks := by
  intro s hself
  obtain ⟨nnn, hpc, hfetch⟩ := hself
  refine ⟨?_, nnn, hpc, hfetch⟩
  simp only [step, hfetch, decodeWord_encode (i := .jp nnn) rfl, exec_jp, finishCycle, State.tick,
    tickTimer_eq_ticked, ← hpc]
  rfl

end Sys2Proof.Machine
end

section
/-! Stores, loads and images: FX33, FX55, FX65, the host's `load`, the glyphs of the font, and the
canonical form of memory (44_index_memory.md, 20_memory.md, 70_reset_and_hazards.md). -/

namespace Sys2Proof.Machine

open Sys2Proof.Claims

/-! ## Accesses at `I` -/

/-- An access inside memory passes the range check (R56). -/
theorem lowestBad_of_le {base len : Nat} (h : base + len ≤ 0xFFF) :
    lowestBad base (len + 1) = none :=
  lowestBad_eq_none.mpr (.inr (by omega))

/-- An access whose last byte lies above 0xFFF is reported by its lowest such address (R56). -/
theorem rangeFault_of_lt (i : Instr) {s : State} {len : Nat} (kind : AccessKind) (hlen : 0 < len)
    (h : 0xFFF < s.i.toNat + len - 1) : rangeFault i s len kind =
      some (.memoryOutOfRange (some (encode i)) (s.pc - 2) (max s.i.toNat 0x1000) kind) := by
  rw [rangeFault, lowestBad_eq_some.mpr ⟨hlen, by omega, rfl⟩, Option.map_some]

/-- Byte `k` of a block that was stored inside memory (R56). -/
theorem Memory.byte_setBytes_add {m : Memory} {base k : Nat} {bs : List Byte} (hwf : m.wf = true)
    (hrange : base + bs.length ≤ memSize) (hk : k < bs.length) :
    (m.setBytes base bs).byte (base + k) = bs[k] := by
  rw [Memory.byte_setBytes _ _ hwf hrange, dif_pos ⟨by omega, by omega⟩]
  simp only [Nat.add_sub_cancel_left]

/-- A block store inside memory keeps the other bytes (R56). -/
theorem Memory.byte_setBytes_of_not {m : Memory} {base a : Nat} {bs : List Byte}
    (hwf : m.wf = true) (hrange : base + bs.length ≤ memSize)
    (ha : ¬ (base ≤ a ∧ a < base + bs.length)) : (m.setBytes base bs).byte a = m.byte a := by
  rw [Memory.byte_setBytes _ _ hwf hrange, dif_neg (by omega)]

/-! ## FX33 -/

/-- Executing `FX33` inside memory stores the three digits (R133). -/
theorem exec_ldB_of_le (x : RegIx) {s : State} (h : s.i.toNat + 2 ≤ 0xFFF) : exec (.ldB x) s =
    .next { s with mem := s.mem.setBytes s.i.toNat (bcdDigits (s.reg x)) } := by
  rw [exec, execLdB, lowestBad_of_le h]

/-- Settles O38: each digit is below 256, so the byte has its value; out of range the fault of the
table. -/
theorem bcdStoresThreeDigits : Obligations.BcdStoresThreeDigits := by
  intro x s
  refine ⟨encodes_of_wellFormed rfl rfl, fun hwf hle => ?_, fun hlt =>
    exec_eq_fault_iff.mpr (rangeFault_of_lt (.ldB x) .write (by decide) hlt)⟩
  have hreg := (s.reg x).isLt
  have hrange : s.i.toNat + (bcdDigits (s.reg x)).length ≤ memSize := by
    simp only [bcdDigits, List.length_cons, List.length_nil, memSize_eq]
    omega
  have hdigit : ∀ k (hk : k < 3), _ := fun k hk =>
    congrArg BitVec.toNat (Memory.byte_setBytes_add (bs := bcdDigits (s.reg x)) hwf hrange hk)
  exact ⟨_, exec_ldB_of_le x hle, rfl,
    (hdigit 0 (by decide)).trans (Nat.mod_eq_of_lt (by omega)),
    (hdigit 1 (by decide)).trans (Nat.mod_eq_of_lt (by omega)),
    (hdigit 2 (by decide)).trans (Nat.mod_eq_of_lt (by omega)),
    fun a ha => Memory.byte_setBytes_of_not hwf hrange ha⟩

/-! ## FX55 and FX65 -/

/-- Executing `FX55` inside memory stores the block of registers (R134). -/
theorem exec_stRegs_of_le {x : RegIx} {s : State} (h : s.i.toNat + x.val ≤ 0xFFF) :
    exec (.stRegs x) s = .next { s with mem := s.mem.setBytes s.i.toNat (regBlock x s) } := by
  rw [exec, execStRegs, lowestBad_of_le h]

/-- Executing `FX65` inside memory loads the block of registers (R135). -/
theorem exec_ldRegs_of_le {x : RegIx} {s : State} (h : s.i.toNat + x.val ≤ 0xFFF) :
    exec (.ldRegs x) s = .next (s.setRegs 0 (s.mem.bytes s.i.toNat (x.val + 1))) := by
  rw [exec, execLdRegs, lowestBad_of_le h]

/-- Executing `FX55` out of range is the fault of the table (R175). -/
theorem exec_stRegs_of_lt {x : RegIx} {s : State} (h : 0xFFF < s.i.toNat + x.val) :
    exec (.stRegs x) s = .fault (.memoryOutOfRange (some (encode (.stRegs x))) (s.pc - 2)
      (max s.i.toNat 0x1000) .write) :=
  exec_eq_fault_iff.mpr (rangeFault_of_lt (.stRegs x) .write (Nat.succ_pos _) h)

/-- A completed `FX55` lay inside memory and stored the block. -/
theorem exec_stRegs_next {x : RegIx} {s t : State} (h : exec (.stRegs x) s = .next t) :
    s.i.toNat + x.val ≤ 0xFFF ∧ t = { s with mem := s.mem.setBytes s.i.toNat (regBlock x s) } := by
  rcases Nat.lt_or_ge 0xFFF (s.i.toNat + x.val) with hlt | hle
  · rw [exec_stRegs_of_lt hlt] at h; cases h
  · rw [exec_stRegs_of_le hle] at h; cases h; exact ⟨hle, rfl⟩

/-- The block of `FX55` ends inside memory when its last register does. -/
theorem regBlock_in_memory {x : RegIx} {s : State} (h : s.i.toNat + x.val ≤ 0xFFF) :
    s.i.toNat + (regBlock x s).length ≤ memSize := by
  rw [length_regBlock, memSize_eq]
  omega

/-- The byte that `FX55` stores for a register of the block (R134). -/
theorem byte_setBytes_regBlock {x k : RegIx} {s : State} (hwf : s.mem.wf = true)
    (h : s.i.toNat + x.val ≤ 0xFFF) (hk : k ≤ x) :
    (s.mem.setBytes s.i.toNat (regBlock x s)).byte (s.i.toNat + k.val) = s.reg k := by
  have hlen : k.val < (regBlock x s).length := by
    rw [length_regBlock]
    exact Nat.lt_succ_of_le hk
  rw [Memory.byte_setBytes_add hwf (regBlock_in_memory h) hlen, getElem_regBlock]

/-- The registers after `FX65` loads a block of `X + 1` bytes (R135). -/
theorem reg_setRegs_bytes (s : State) (x r : RegIx) (base : Nat) :
    (s.setRegs 0 (s.mem.bytes base (x.val + 1))).reg r =
      if r ≤ x then s.mem.byte (base + r.val) else s.reg r := by
  have hin : (0 ≤ r.val ∧ r.val - 0 < (s.mem.bytes base (x.val + 1)).length) ↔ r ≤ x := by
    rw [Memory.length_bytes, Fin.le_def]
    omega
  rw [State.reg_setRegs]
  by_cases hr : r ≤ x
  · rw [dif_pos (hin.mpr hr), if_pos hr, Memory.getElem_bytes, Nat.sub_zero]
  · rw [dif_neg (mt hin.mp hr), if_neg hr]

/-- Settles O39: the block store, byte by byte; out of range the fault of the table. -/
theorem blockStoreCopiesRegisters : Obligations.BlockStoreCopiesRegisters := by
  intro x s
  refine ⟨encodes_of_wellFormed rfl rfl, fun hwf hle => ⟨_, exec_stRegs_of_le hle, rfl,
    fun k hk => byte_setBytes_regBlock hwf hle hk, fun a ha => ?_⟩, exec_stRegs_of_lt⟩
  exact Memory.byte_setBytes_of_not hwf (regBlock_in_memory hle) (by rwa [length_regBlock])

/-- Settles O40: the block load, register by register; out of range the fault of the table. -/
theorem blockLoadCopiesMemory : Obligations.BlockLoadCopiesMemory := by
  intro x s
  exact ⟨encodes_of_wellFormed rfl rfl, fun hle => ⟨_, exec_ldRegs_of_le hle,
      State.setRegs_frame _ s 0, fun r => reg_setRegs_bytes s x r _⟩,
    fun hlt => exec_eq_fault_iff.mpr (rangeFault_of_lt (.ldRegs x) .read (Nat.succ_pos _) hlt)⟩

/-- Settles O41: the load reads at each address the register that the store put there. -/
theorem blockTransferRoundTrip : Obligations.BlockTransferRoundTrip := by
  intro x s t v hwf h
  obtain ⟨hle, rfl⟩ := exec_stRegs_next h
  refine ⟨_, exec_ldRegs_of_le hle, State.setRegs_frame .., fun r => ?_⟩
  rw [reg_setRegs_bytes]
  exact ite_congr rfl (fun hr => byte_setBytes_regBlock hwf hle hr) fun _ => rfl

/-- Settles O42: the two bytes of the next fetch are the first two of the block. -/
theorem storedInstructionIsFetchedAtOnce : Obligations.StoredInstructionIsFetchedAtOnce := by
  intro x s t hwf hx hipc h
  obtain ⟨hle, rfl⟩ := exec_stRegs_next h
  have hhi := byte_setBytes_regBlock (k := 0) hwf hle (Nat.zero_le _)
  have hlo := byte_setBytes_regBlock (k := 1) hwf hle hx
  rw [hipc] at hle hhi hlo
  rw [fetch_eq_ok (by simp only; omega), Memory.word]
  simp only [hipc]
  exact congrArg Except.ok (congrArg₂ wordOfBytes hhi hlo)

/-! ## The font and the host's commands -/

/-- Settles O54: the address that FX29 computes lies in the font, where memory after a reset holds
it. -/
theorem glyphsStandAtTheirFontAddresses : Obligations.GlyphsStandAtTheirFontAddresses := by
  refine ⟨fun font x s k hmem => ⟨_, exec_ldF x s, ?_⟩, by decide⟩
  have hdigit : (s.reg x).toNat % 16 < 16 := Nat.mod_lt _ (by decide)
  have hk := k.isLt
  simp only [hmem, State.resetWith_mem, Memory.byte_withFont, resetByte_eq_getD,
    toNat_fontAddress hdigit]
  rw [if_pos (by omega)]
  congr 1
  omega

/-- Settles O56: an image of at most 3584 bytes ends inside memory. -/
theorem loadCopiesImage : Obligations.LoadCopiesImage := by
  intro bytes s hwf hlen
  have hrange : progBase + bytes.length ≤ memSize := by
    rw [progBase_eq, memSize_eq]
    omega
  exact ⟨_, if_pos hlen, rfl, fun _ hk => Memory.byte_setBytes_add hwf hrange hk,
    fun _ ha => Memory.byte_setBytes_of_not hwf hrange ha⟩

/-- Settles O55: the command does not read the state, but for the draw counter that it passes on. -/
theorem resetCommandReinitializesEverything : Obligations.ResetCommandReinitializesEverything :=
  fun font s => ⟨resetCommand font s, rfl, rfl, rfl, rfl⟩

/-- Settles O1, by running the decoder on the nineteen words. -/
theorem writtenOutWordsDecode : Obligations.WrittenOutWordsDecode := by
  unfold Obligations.WrittenOutWordsDecode
  decide

/-! ## The canonical form of memory -/

/-- The canonical form, cell by cell. -/
theorem Memory.wfFrom_cons_iff {lo a : Nat} {b : Byte} {m : Memory} :
    Memory.wfFrom lo ((a, b) :: m) = true ↔
      lo ≤ a ∧ a < 4096 ∧ b ≠ initialByte a ∧ Memory.wfFrom (a + 1) m = true := by
  simp only [Memory.wfFrom, Bool.and_eq_true, decide_eq_true_eq, and_assoc, memSize_eq]

/-- A canonical memory reads otherwise at its first cell than one whose cells lie above it. -/
theorem Memory.byte_ne_at_head {lo a : Nat} {b : Byte} {m m' : Memory}
    (hm : Memory.wfFrom lo ((a, b) :: m) = true) (hm' : Memory.wfFrom (a + 1) m' = true) :
    Memory.byte ((a, b) :: m) a ≠ m'.byte a := by
  obtain ⟨_, _, hb, _⟩ := Memory.wfFrom_cons_iff.mp hm
  rw [Memory.byte_below (Nat.lt_succ_self a) hm', Memory.byte, if_pos rfl]
  exact hb

/-- The canonical form from a cell on, when the cell lies above an address. -/
theorem Memory.wfFrom_of_lt_head {lo lo' a : Nat} {b : Byte} {m : Memory}
    (hm : Memory.wfFrom lo ((a, b) :: m) = true) (ha : lo' ≤ a) :
    Memory.wfFrom lo' ((a, b) :: m) = true := by
  obtain ⟨_, hrest⟩ := Memory.wfFrom_cons_iff.mp hm
  exact Memory.wfFrom_cons_iff.mpr ⟨ha, hrest⟩

/-- Canonical memories that read alike have the same cells: the first cells are at the same address,
since only there does a memory first differ from its reset contents, and the rests read alike. -/
theorem Memory.eq_of_byte_eq : ∀ {lo : Nat} {m m' : Memory}, Memory.wfFrom lo m = true →
    Memory.wfFrom lo m' = true → (∀ a, a < 4096 → m.byte a = m'.byte a) → m = m'
  | _, [], [], _, _, _ => rfl
  | _, [], (a, _) :: _, _, hm', hread =>
    absurd (hread a (Memory.wfFrom_cons_iff.mp hm').2.1).symm (Memory.byte_ne_at_head hm' rfl)
  | _, (a, _) :: _, [], hm, _, hread =>
    absurd (hread a (Memory.wfFrom_cons_iff.mp hm).2.1) (Memory.byte_ne_at_head hm rfl)
  | _, (a, b) :: m, (a', b') :: m', hm, hm', hread => by
    obtain ⟨_, ha, _, hrest⟩ := Memory.wfFrom_cons_iff.mp hm
    obtain ⟨_, ha', _, hrest'⟩ := Memory.wfFrom_cons_iff.mp hm'
    rcases lt_trichotomy a a' with hlt | rfl | hlt
    · exact absurd (hread a ha) (Memory.byte_ne_at_head hm (Memory.wfFrom_of_lt_head hm' hlt))
    · have hb := hread a ha
      simp only [Memory.byte, if_pos] at hb
      have hreads : ∀ c, c < 4096 → Memory.byte m c = Memory.byte m' c := by
        intro c hc
        by_cases hca : c = a
        · rw [hca, Memory.byte_below (Nat.lt_succ_self a) hrest,
            Memory.byte_below (Nat.lt_succ_self a) hrest']
        · simpa only [Memory.byte, if_neg hca] using hread c hc
      rw [hb, Memory.eq_of_byte_eq hrest hrest' hreads]
    · exact absurd (hread a' ha').symm
        (Memory.byte_ne_at_head hm' (Memory.wfFrom_of_lt_head hm hlt))

/-- Settles O58: `Memory.eq_of_byte_eq` from address 0. -/
theorem canonicalMemoriesReadingAlikeAreEqual :
    Obligations.CanonicalMemoriesReadingAlikeAreEqual :=
  fun _ _ hm hm' hread => Memory.eq_of_byte_eq hm hm' hread

end Sys2Proof.Machine
end

section
/-! Drawing: the pixels that a sprite addresses, under both edge policies, and the instruction DXYN
(45_display.md R141 to R143, 93_implementation_defined.md U2). -/

namespace Sys2Proof.Machine

open Sys2Proof.Claims

/-! ## Drawing as exclusive-or with a bit per pixel -/

/-- Drawing at most 32 rows XORs every pixel with its bit, and notes a collision exactly when a
pixel that was on has its bit set, for any bit that says which pixels the sprite addresses (R141).
-/
theorem drawSprite_of_bit {edge : DrwEdge} {x0 y0 : Nat} {bs : List Byte}
    {bit : Fin 32 → Fin 64 → Bool} (fb : Framebuffer) (hlen : bs.length ≤ 32)
    (hbit : ∀ y x, (y, x) ∈ spriteTargets edge x0 y0 0 bs ↔ bit y x = true) :
    (∀ y x, (drawSprite edge fb x0 y0 bs).1.pixel y x = (fb.pixel y x ^^ bit y x)) ∧
    ((drawSprite edge fb x0 y0 bs).2 = true ↔
      ∃ y x, fb.pixel y x = true ∧ bit y x = true) := by
  obtain ⟨hpixel, hhit⟩ := drawSprite_spec edge fb x0 y0 bs hlen
  refine ⟨fun y x => ?_, ?_⟩
  · simp only [hpixel, hbit, Bool.decide_eq_true]
  · rw [hhit, List.any_eq_true, Prod.exists]
    simp only [hbit, and_comm]

/-! ## Which pixels a sprite addresses -/

/-- Under `clip` a sprite position addresses the pixel at its place, if there is one (R143). -/
theorem spriteTarget_clip_eq_some {x0 y0 r c : Nat} {y : Fin 32} {x : Fin 64} :
    spriteTarget .clip x0 y0 r c = some (y, x) ↔ y.val = y0 + r ∧ x.val = x0 + c := by
  simp only [spriteTarget]
  split
  · simp only [Option.some.injEq, Prod.mk.injEq, Fin.ext_iff, eq_comm]
  · simp; omega

/-- Under `wrap` a sprite position addresses the pixel at its place modulo the screen (U2). -/
theorem spriteTarget_wrap_eq_some {x0 y0 r c : Nat} {y : Fin 32} {x : Fin 64} :
    spriteTarget .wrap x0 y0 r c = some (y, x) ↔
      y.val = (y0 + r) % 32 ∧ x.val = (x0 + c) % 64 := by
  simp only [spriteTarget, Option.some.injEq, Prod.mk.injEq, Fin.ext_iff, eq_comm]

/-- Under `clip` the addressed pixels are those whose sprite bit is set (R142, R143). -/
theorem mem_spriteTargets_clip {m : Memory} {base n x0 y0 : Nat} {y : Fin 32} {x : Fin 64} :
    (y, x) ∈ spriteTargets .clip x0 y0 0 (m.bytes base n) ↔
      spriteBit m base n x0 y0 y x = true := by
  simp only [mem_spriteTargets, spriteTarget_clip_eq_some, spriteBit, Bool.and_eq_true,
    decide_eq_true_eq, Memory.getElem_bytes]
  constructor
  · rintro ⟨k, c, hk, hc, hb, hy, hx⟩
    rw [Memory.length_bytes] at hk
    refine ⟨by omega, ?_⟩
    rwa [show y.val - y0 = k by omega, show x.val - x0 = c by omega]
  · rintro ⟨hin, hb⟩
    exact ⟨y.val - y0, x.val - x0, by rw [Memory.length_bytes]; omega, by omega, hb, by omega,
      by omega⟩

/-- Under `wrap` the addressed pixels are those onto which a set bit of the sprite wraps (U2). -/
theorem mem_spriteTargets_wrap {x0 y0 : Nat} {bs : List Byte} (hx0 : x0 < 64) (hy0 : y0 < 32)
    (hlen : bs.length ≤ 32) {y : Fin 32} {x : Fin 64} :
    (y, x) ∈ spriteTargets .wrap x0 y0 0 bs ↔
      (decide ((x.val + 64 - x0) % 64 < 8) &&
        (bs.getD ((y.val + 32 - y0) % 32) 0x00#8).getLsbD (7 - (x.val + 64 - x0) % 64)) = true := by
  simp only [mem_spriteTargets, spriteTarget_wrap_eq_some, Bool.and_eq_true, decide_eq_true_eq]
  constructor
  · rintro ⟨k, c, hk, hc, hb, hy, hx⟩
    have hrow : (y.val + 32 - y0) % 32 = k := by omega
    have hcol : (x.val + 64 - x0) % 64 = c := by omega
    rw [hrow, hcol, List.getD_eq_getElem _ _ hk]
    exact ⟨hc, hb⟩
  · rintro ⟨hc, hb⟩
    have hk : (y.val + 32 - y0) % 32 < bs.length := by
      by_contra hout
      rw [List.getD_eq_default _ _ (Nat.le_of_not_lt hout)] at hb
      simp at hb
    rw [List.getD_eq_getElem _ _ hk] at hb
    exact ⟨_, _, hk, hc, hb, by omega, by omega⟩

/-- Settles O47: `drawSprite_of_bit` with the bit that wraps onto a pixel. -/
theorem wrapPolicyDrawsEveryPixel : Obligations.WrapPolicyDrawsEveryPixel := by
  intro fb x0 y0 sprite hx0 hy0 hlen
  have hlen32 : sprite.length ≤ 32 := by omega
  exact drawSprite_of_bit fb hlen32 fun y x => mem_spriteTargets_wrap hx0 hy0 hlen32

/-! ## DXYN -/

/-- Executing DXYN with its sprite inside memory, or with no rows: the draw under `clip`, then the
collision flag to VF (R141). -/
theorem exec_drw_of_le (x y : RegIx) {n : Nat} {s : State} (h : n = 0 ∨ s.i.toNat + n - 1 ≤ 0xFFF) :
    ∃ fb hit, drawSprite .clip s.fb ((s.reg x).toNat % 64) ((s.reg y).toNat % 32)
        (s.mem.bytes s.i.toNat n) = (fb, hit) ∧
      exec (.drw x y n) s = .next (State.setReg { s with fb := fb } vf (collisionFlag hit)) := by
  have hrange : lowestBad s.i.toNat n = none := lowestBad_eq_none.mpr (by omega)
  exact ⟨_, _, rfl, by rw [exec, execDrw, hrange]; rfl⟩

/-- Executing DXYN with a sprite byte above 0xFFF is the fault of the table (R175). -/
theorem exec_drw_of_lt (x y : RegIx) {n : Nat} {s : State} (hn : 0 < n)
    (h : 0xFFF < s.i.toNat + n - 1) : exec (.drw x y n) s = .fault (.memoryOutOfRange
      (some (encode (.drw x y n))) (s.pc - 2) (max s.i.toNat 0x1000) .read) :=
  exec_eq_fault_iff.mpr (rangeFault_of_lt (.drw x y n) .read hn h)

/-- Settles O44: the draw is exclusive-or with `drwBit`, and VF is written after it. -/
theorem drawXorsSpriteAndReportsCollision : Obligations.DrawXorsSpriteAndReportsCollision := by
  intro x y n s hn h
  obtain ⟨fb, hit, hdraw, hexec⟩ := exec_drw_of_le x y h
  obtain ⟨hpixel, hhit⟩ := drawSprite_of_bit (bit := drwBit s x y n) s.fb
    (by rw [Memory.length_bytes]; omega) fun _ _ => mem_spriteTargets_clip
  rw [hdraw] at hpixel hhit
  dsimp only at hpixel hhit
  refine ⟨encodes_of_wellFormed (decide_eq_true hn) rfl, _, hexec, rfl, hpixel,
    fun hcollision => ?_, fun hno => ?_, fun r hr => State.reg_setReg_ne _ _ _ _ hr⟩
  · rw [State.reg_setReg_self, hhit.mpr hcollision]
    rfl
  · have hmiss : hit = false := Bool.eq_false_of_not_eq_true fun hcollision => by
      obtain ⟨py, px, hon, hset⟩ := hhit.mp hcollision
      rw [hno py px hon] at hset
      cases hset
    rw [State.reg_setReg_self, hmiss]
    rfl

/-- Settles O45: the range check is of all `n` rows, before anything is drawn. -/
theorem drawOutsideMemoryFaults : Obligations.DrawOutsideMemoryFaults :=
  fun x y _ _ hn h => exec_drw_of_lt x y hn h

/-- A completed DXYN had its sprite inside memory, or no rows. -/
theorem range_of_exec_drw {x y : RegIx} {n : Nat} {s t : State}
    (h : exec (.drw x y n) s = .next t) : n = 0 ∨ s.i.toNat + n - 1 ≤ 0xFFF := by
  by_contra hout
  rw [exec_drw_of_lt x y (by omega) (by omega)] at h
  cases h

/-- Settles O46: the first draw writes none of what the second reads but the framebuffer, so both
XOR with the same bits; a pixel that the first turned on has its bit set. -/
theorem drawingTwiceRestoresFramebuffer : Obligations.DrawingTwiceRestoresFramebuffer := by
  intro x y n s t u hn hx hy hst htu
  obtain ⟨_, t', hst', hframe, hpixel, _, _, hreg⟩ :=
    drawXorsSpriteAndReportsCollision x y n s hn (range_of_exec_drw hst)
  cases hst'.symm.trans hst
  obtain ⟨_, u', htu', _, hpixel', hcollision, _, _⟩ :=
    drawXorsSpriteAndReportsCollision x y n t hn (range_of_exec_drw htu)
  cases htu'.symm.trans htu
  have hbit : drwBit t x y n = drwBit s x y n := by
    have hmem : t.mem = s.mem := (congrArg State.mem hframe :)
    have hi : t.i = s.i := (congrArg State.i hframe :)
    funext py px
    rw [drwBit, drwBit, hmem, hi, hreg x hx, hreg y hy]
  refine ⟨Framebuffer.ext_pixel fun py px => ?_, ?_⟩
  · rw [hpixel', hpixel, hbit, Bool.xor_assoc, Bool.xor_self, Bool.xor_false]
  · rintro ⟨py, px, hoff, hon⟩
    refine hcollision ⟨py, px, hon, ?_⟩
    rw [hpixel, hoff, Bool.false_xor] at hon
    rwa [hbit]

end Sys2Proof.Machine
end
